-- ==== Sys2Proof/Word.lean ====
section
/-! DEFINITION. The widths of the block's values (rule R10 of 00_scope.md, rule R70 of 30_encoding.md). -/

namespace Sys2Proof

/-- A byte: an address, control, info or wire byte (R10). -/
abbrev Byte := BitVec 8

/-- 16 bits: the FCS, the CRC register and the operand `n` (R10, R71). -/
abbrev Half := BitVec 16

/-- 32 bits: the command word and the response value (R70, R76). -/
abbrev Word := BitVec 32

end Sys2Proof
end

