-- ==== Sys2Proof/Syntax.lean ====
section
/-! DEFINITION. The commands of the block: one constructor for each row of the opcode map (rule R72 of 30_encoding.md),
with the operands its format reads (rule R73). -/

namespace Sys2Proof

/-- A command (R72). Operand names are the spec's: bytes `a`, `b`, `c` and the 16-bit `n` (R70, R71). -/
inductive Instr where
  /-- NOP (R220). -/
  | nop
  /-- WR_ADDR a (R221). -/
  | wrAddr (a : Byte)
  /-- WR_CTRL a (R222). -/
  | wrCtrl (a : Byte)
  /-- WR_LEN a (R224). -/
  | wrLen (a : Byte)
  /-- WR_INFO a, b: index a, byte b (R225). -/
  | wrInfo (a b : Byte)
  /-- RD_ADDR (R226). -/
  | rdAddr
  /-- RD_CTRL (R227). -/
  | rdCtrl
  /-- RD_LEN (R228). -/
  | rdLen
  /-- RD_INFO a: index a (R229). -/
  | rdInfo (a : Byte)
  /-- CLR_FRAME (R230). -/
  | clrFrame
  /-- WR_BUF n, c: index n, byte c (R231). -/
  | wrBuf (n : Half) (c : Byte)
  /-- RD_BUF n: index n (R232). -/
  | rdBuf (n : Half)
  /-- STUFF a, b: byte a, room b (R114). -/
  | stuff (a b : Byte)
  /-- UNSTUFF a, b, c: first byte a, next byte b, avail c (R116). -/
  | unstuff (a b c : Byte)
  /-- BUILD_I a, b, c: ns a, pf b, nr c (R131). -/
  | buildI (a b c : Byte)
  /-- BUILD_S a, b, c: scode a, pf b, nr c (R133). -/
  | buildS (a b c : Byte)
  /-- BUILD_U a, b: ucode a, pf b (R135). -/
  | buildU (a b : Byte)
  /-- CTRL_PARSE a: control byte a (R137). -/
  | ctrlParse (a : Byte)
  /-- CRC_BUF n: byte count n (R156). -/
  | crcBuf (n : Half)
  /-- ENCODE n: capacity n (R170). -/
  | encode (n : Half)
  /-- DECODE n: input length n (R190). -/
  | decode (n : Half)
deriving DecidableEq, Repr

/-- The S-codes of rule R84, which BUILD_S takes by name or by number (R78). -/
inductive SCode where
  | rr | rej | rnr | srej
deriving DecidableEq, Repr

/-- The U-frame modifier codes of rule R85, which BUILD_U takes by name or by number (R78). -/
inductive UCode where
  | snrm | sabm | sabme | disc | ua | rset | frmr
deriving DecidableEq, Repr

end Sys2Proof
end

