-- ==== Sys2Proof/Decode.lean ====
section
/-! DEFINITION. The command word: its fields (rules R70 and R71 of 30_encoding.md), the decoder over the opcode map
(rules R72, R74 and R75) and the encoder. -/

namespace Sys2Proof

/-- `op`: bits 7..0 (R70). -/
def opField (w : Word) : Byte := w.extractLsb' 0 8

/-- Operand A: bits 15..8 (R70). -/
def aField (w : Word) : Byte := w.extractLsb' 8 8

/-- Operand B: bits 23..16 (R70). -/
def bField (w : Word) : Byte := w.extractLsb' 16 8

/-- Operand C: bits 31..24 (R70). -/
def cField (w : Word) : Byte := w.extractLsb' 24 8

/-- The 16-bit operand `n`: bits 23..8 (R71). -/
def nField (w : Word) : Half := w.extractLsb' 8 16

/-- Why a word is no command of the opcode map. -/
inductive DecodeReject where
  /-- Its `op` is not in the table of rule R72: an undefined command (R75). -/
  | undefinedOpcode (op : Byte)
deriving DecidableEq, Repr

/-- The command a word stands for: `op` alone selects it (R72), and each format reads only its own fields (R73, R74). -/
def decode (w : Word) : Except DecodeReject Instr :=
  match opField w with
  | 0x00#8 => .ok .nop
  | 0x01#8 => .ok (.wrAddr (aField w))
  | 0x02#8 => .ok (.wrCtrl (aField w))
  | 0x03#8 => .ok (.wrLen (aField w))
  | 0x04#8 => .ok (.wrInfo (aField w) (bField w))
  | 0x05#8 => .ok .rdAddr
  | 0x06#8 => .ok .rdCtrl
  | 0x07#8 => .ok .rdLen
  | 0x08#8 => .ok (.rdInfo (aField w))
  | 0x09#8 => .ok .clrFrame
  | 0x0A#8 => .ok (.wrBuf (nField w) (cField w))
  | 0x0B#8 => .ok (.rdBuf (nField w))
  | 0x10#8 => .ok (.stuff (aField w) (bField w))
  | 0x11#8 => .ok (.unstuff (aField w) (bField w) (cField w))
  | 0x20#8 => .ok (.buildI (aField w) (bField w) (cField w))
  | 0x21#8 => .ok (.buildS (aField w) (bField w) (cField w))
  | 0x22#8 => .ok (.buildU (aField w) (bField w))
  | 0x23#8 => .ok (.ctrlParse (aField w))
  | 0x30#8 => .ok (.crcBuf (nField w))
  | 0x40#8 => .ok (.encode (nField w))
  | 0x41#8 => .ok (.decode (nField w))
  | op => .error (.undefinedOpcode op)

/-- The word with the four byte fields given (R70). -/
def wordABC (c b a op : Byte) : Word := c ++ b ++ a ++ op

/-- The word with operand C, the 16-bit operand `n` and `op` given (R70, R71). -/
def wordNC (c : Byte) (n : Half) (op : Byte) : Word := c ++ n ++ op

/-- The `op` of each command (R72). -/
def opcode : Instr → Byte
  | .nop => 0x00
  | .wrAddr _ => 0x01
  | .wrCtrl _ => 0x02
  | .wrLen _ => 0x03
  | .wrInfo _ _ => 0x04
  | .rdAddr => 0x05
  | .rdCtrl => 0x06
  | .rdLen => 0x07
  | .rdInfo _ => 0x08
  | .clrFrame => 0x09
  | .wrBuf _ _ => 0x0A
  | .rdBuf _ => 0x0B
  | .stuff _ _ => 0x10
  | .unstuff _ _ _ => 0x11
  | .buildI _ _ _ => 0x20
  | .buildS _ _ _ => 0x21
  | .buildU _ _ => 0x22
  | .ctrlParse _ => 0x23
  | .crcBuf _ => 0x30
  | .encode _ => 0x40
  | .decode _ => 0x41

/-- The word of a command, its unread bits zero (R72, R73). -/
def encode (i : Instr) : Word :=
  match i with
  | .nop | .rdAddr | .rdCtrl | .rdLen | .clrFrame => wordABC 0 0 0 (opcode i)
  | .wrAddr a | .wrCtrl a | .wrLen a | .rdInfo a | .ctrlParse a => wordABC 0 0 a (opcode i)
  | .wrInfo a b | .stuff a b | .buildU a b => wordABC 0 b a (opcode i)
  | .unstuff a b c | .buildI a b c | .buildS a b c => wordABC c b a (opcode i)
  | .rdBuf n | .crcBuf n | .encode n | .decode n => wordNC 0 n (opcode i)
  | .wrBuf n c => wordNC c n (opcode i)

/-- The bits a command's format reads (R73): N reads 7..0, A 15..0, AB, NN 23..0, ABC and NC all 32. -/
def readMask : Instr → Word
  | .nop | .rdAddr | .rdCtrl | .rdLen | .clrFrame => 0x000000FF
  | .wrAddr _ | .wrCtrl _ | .wrLen _ | .rdInfo _ | .ctrlParse _ => 0x0000FFFF
  | .wrInfo _ _ | .stuff _ _ | .buildU _ _ => 0x00FFFFFF
  | .rdBuf _ | .crcBuf _ | .encode _ | .decode _ => 0x00FFFFFF
  | .unstuff _ _ _ | .buildI _ _ _ | .buildS _ _ _ | .wrBuf _ _ => 0xFFFFFFFF

/-- The 32-bit word made of the low `nbits` bits of `w`, as the opcode table numbers them; the rest is zero. -/
def tableWord (nbits w : Nat) : Word := BitVec.ofNat 32 (w % 2 ^ nbits)

/-- The command the decoder reads from a table row's bits; none for an undefined opcode. -/
def decodeTableWord (nbits w : Nat) : Option Instr :=
  match decode (tableWord nbits w) with
  | .ok i => some i
  | .error _ => none

end Sys2Proof
end

