-- ==== Sys2Proof/Config.lean ====
section
/-! DEFINITION. What one build of the block fixes (rules R6 to R9 of 00_scope.md), and the values the spec leaves free. -/

namespace Sys2Proof

/-- FCS_SCOPE (R8): which bytes the FCS is computed over. -/
inductive FcsScope where
  /-- The unescaped address, control and info bytes. -/
  | logical
  /-- The stuffed bytes as written on the wire. -/
  | written
deriving DecidableEq, Repr

/-- The build parameters of the block (R26). LOG_ENABLE is left out, as R9 asks. -/
structure Params where
  /-- MAX_INFO (R6). -/
  maxInfo : Nat
  /-- BUF_SIZE (R7). -/
  bufSize : Nat
  /-- FCS_SCOPE (R8). -/
  fcsScope : FcsScope
deriving DecidableEq, Repr

/-- The defaults of R6, R7 and R8. -/
def Params.default : Params := { maxInfo := 255, bufSize := 520, fcsScope := .logical }

/-- The free values of the spec's `draw()` (R14): draw number `k` is a 16-bit value that nothing constrains.
A narrower draw takes its low bits; a draw from a range takes it modulo the range's size. -/
opaque Config.draw : Nat → Half

end Sys2Proof
end

