-- ==== Sys2Proof/Machine/State.lean ====
section
/-! DEFINITION. The state of the block (10_state.md, 20_memory.md), the stop reasons, and the state after reset (70_reset_and_hazards.md). -/

namespace Sys2Proof.Machine

/-- Reasons for a step to stop the machine: there are none. An error of the block is a status in its response, "never
thrown as uncatchable faults" (rule R250), so nothing raises a fault. Safe: there is nothing to raise. -/
inductive Fault where
deriving DecidableEq, Repr

/-- Reasons for a command to have no meaning in this model. -/
inductive Refusal where
  /-- Raised by no arm of `exec`: every row of the opcode table has its meaning. Safe. -/
  | notModelled (mnemonic : String)
deriving DecidableEq, Repr

/-- The status codes of rule R77 (their numbers are `Status.code`). Code 7 is never produced, so it has no name. -/
inductive Status where
  | ok
  | invalidArgument
  | bufferTooSmall
  | malformedStream
  | checksumMismatch
  | incompleteFrame
  | unknownModifierCode
deriving DecidableEq, Repr

/-- A response: a status and a 32-bit value (R76). -/
structure Response where
  status : Status
  value : Word
deriving DecidableEq, Repr

/-- The frame register FR (R20). -/
structure Frame where
  /-- FR.address. -/
  address : Byte
  /-- FR.control, a raw byte (R24). -/
  control : Byte
  /-- FR.info_len. -/
  infoLen : Byte
  /-- FR.info[0..MAX_INFO): MAX_INFO bytes (`State.Inv` says so). -/
  info : List Byte
deriving DecidableEq, Repr

/-- The buffer memory BUF (R50). -/
structure Memory where
  /-- The bytes written since reset, at strictly rising indices; an unlisted index has no byte of its own. -/
  cells : List Host.Cell
  /-- The model's own (log 4): byte i of BUF, while it is unlisted, is draw number `unwritten + i` (R281). -/
  unwritten : Nat
deriving DecidableEq, Repr

/-- The encoder phases of rule R29. -/
inductive EncPhase where
  | startFlag | address | control | info | fcsHi | fcsLo | stopFlag | done
deriving DecidableEq, Repr

/-- The encoder's working state (R29). -/
structure Encoder where
  phase : EncPhase
  /-- The write pointer: wire bytes already written. -/
  wp : Nat
  /-- The info index. -/
  ii : Nat
deriving DecidableEq, Repr

/-- The decoder states of rule R30. -/
inductive DecPhase where
  | awaitStartFlag | address | control | info | fcs | awaitStopFlag | done
deriving DecidableEq, Repr

/-- The decoder's working state (R30). -/
structure Decoder where
  phase : DecPhase
  /-- The input length, the LEN operand. -/
  n : Nat
  /-- The cursor. -/
  c : Nat
  /-- The decoded FCS high byte, held in the FCS state. -/
  fcsHi : Byte
  /-- The model's own (log 18): in the FCS state, whether `fcsHi` has been read, so that the low byte comes next (R210). -/
  fcsHiRead : Bool
  /-- The cursor on entry to FCS. -/
  cf : Nat
deriving DecidableEq, Repr

/-- What the host can do to the block between commands (R70, R280). -/
inductive HostEvent where
  /-- Issue a command word. -/
  | command (w : Word)
  /-- Apply reset. -/
  | reset
deriving DecidableEq, Repr

/-- The state of the block, with the host's side of the interface. -/
structure State where
  /-- MAX_INFO, BUF_SIZE and FCS_SCOPE: build constants that no command writes (R26). -/
  params : Params
  /-- The frame register FR (R20). -/
  fr : Frame
  /-- The buffer memory BUF (R50). -/
  buf : Memory
  /-- The CRC register (R28). -/
  crc : Half
  /-- The encoder's working state (R29). -/
  enc : Encoder
  /-- The decoder's working state (R30). -/
  dec : Decoder
  /-- The last response given (R76): an output that no command reads (R25). The model's own field, log 2. -/
  response : Option Response
  /-- The events the host has still to give the block, in order (R58). The model's own field, log 1. -/
  input : List HostEvent
  /-- How many free values have been drawn. The model's own field, log 3. -/
  draws : Nat
deriving DecidableEq, Repr

/-- FR zero-initialized (R27). -/
def Frame.zero (maxInfo : Nat) : Frame :=
  { address := 0, control := 0, infoLen := 0, info := List.replicate maxInfo 0 }

/-- The idle encoder's values at reset, which the spec leaves unspecified (R280): log 8. -/
def Encoder.atReset : Encoder := { phase := .startFlag, wp := 0, ii := 0 }

/-- The idle decoder's values at reset, which the spec leaves unspecified (R280): log 8. -/
def Decoder.atReset : Decoder :=
  { phase := .awaitStartFlag, n := 0, c := 0, fcsHi := 0, fcsHiRead := false, cf := 0 }

/-- The state after reset of a block built with parameters `p` (R280, R281): the first BUF_SIZE draws are BUF's bytes. -/
def State.resetWith (p : Params) : State :=
  { params := p
    fr := Frame.zero p.maxInfo
    buf := { cells := [], unwritten := 0 }
    crc := 0
    enc := Encoder.atReset
    dec := Decoder.atReset
    response := none
    input := []
    draws := p.bufSize }

/-- The state after reset of a block built with the default parameters. -/
def State.reset : State := State.resetWith Params.default

end Sys2Proof.Machine
end

