-- ==== Sys2Proof/Machine/Flags.lean ====
section
/-! DEFINITION. The block has no flags and no condition codes (rule R25 of 10_state.md): the outcome of a command is the
3-bit status of its response. Its numbers are those of rule R77 of 30_encoding.md; the codes of the working state are those
of rules R29 and R30 of 10_state.md. -/

namespace Sys2Proof.Machine

/-- The number of a status (R77). -/
def Status.code : Status → BitVec 3
  | .ok => 0
  | .invalidArgument => 1
  | .bufferTooSmall => 2
  | .malformedStream => 3
  | .checksumMismatch => 4
  | .incompleteFrame => 5
  | .unknownModifierCode => 6

/-- The number of an encoder phase (R29). -/
def EncPhase.code : EncPhase → Nat
  | .startFlag => 0
  | .address => 1
  | .control => 2
  | .info => 3
  | .fcsHi => 4
  | .fcsLo => 5
  | .stopFlag => 6
  | .done => 7

/-- The encoder phase with a number (R29); every number from 7 on gives Done. -/
def EncPhase.ofCode : Nat → EncPhase
  | 0 => .startFlag
  | 1 => .address
  | 2 => .control
  | 3 => .info
  | 4 => .fcsHi
  | 5 => .fcsLo
  | 6 => .stopFlag
  | _ => .done

/-- The number of a decoder state (R30). -/
def DecPhase.code : DecPhase → Nat
  | .awaitStartFlag => 0
  | .address => 1
  | .control => 2
  | .info => 3
  | .fcs => 4
  | .awaitStopFlag => 5
  | .done => 6

/-- The decoder state with a number (R30); every number from 6 on gives Done. -/
def DecPhase.ofCode : Nat → DecPhase
  | 0 => .awaitStartFlag
  | 1 => .address
  | 2 => .control
  | 3 => .info
  | 4 => .fcs
  | 5 => .awaitStopFlag
  | _ => .done

end Sys2Proof.Machine
end

