-- ==== Sys2Proof/Machine/Operands.lean ====
section
/-! DEFINITION. Operand helpers: widening, bit reversal (rule R12 of 00_scope.md), the operand truncation of the builders
(rule R130 of 41_control_field.md), and the numbers of named operands (rules R84 and R85 of 30_encoding.md). -/

namespace Sys2Proof.Machine

/-- `zext_32` (R12). -/
def zext32 {w : Nat} (v : BitVec w) : Word := v.setWidth 32

/-- `zext_16` (R12). -/
def zext16 (v : Byte) : Half := v.setWidth 16

/-- Two bytes as a 16-bit value, the high byte first: `(zext_16(hi) << 8) | zext_16(lo)` (R190). -/
def joinBytes (hi lo : Byte) : Half := (zext16 hi <<< 8) ||| zext16 lo

/-- `rev8` (R12). -/
def rev8 (b : Byte) : Byte := b.reverse

/-- `rev16` (R12). -/
def rev16 (v : Half) : Half := v.reverse

/-- N(S) and N(R) use their low 3 bits (R130). -/
def seqField (v : Byte) : Byte := v &&& 0x07

/-- P/F uses its low bit (R130). -/
def pfField (v : Byte) : Byte := v &&& 0x01

/-- The S-code uses its low 2 bits (R130). -/
def scodeField (v : Byte) : Byte := v &&& 0x03

end Sys2Proof.Machine

namespace Sys2Proof

/-- The numeric value of an S-code (R84). -/
def SCode.code : SCode → Byte
  | .rr => 0
  | .rej => 1
  | .rnr => 2
  | .srej => 3

/-- The BUILD_U operand of a U-frame code (R85). -/
def UCode.code : UCode → Byte
  | .snrm => 0
  | .sabm => 1
  | .sabme => 2
  | .disc => 3
  | .ua => 4
  | .rset => 5
  | .frmr => 6

end Sys2Proof
end

