-- ==== Sys2Proof/Machine/Ops.lean ====
section
/-! DEFINITION. The operations the commands share: ending a command (rule R15 of 00_scope.md), free values (rule R14),
reading and writing BUF (20_memory.md) and FR (10_state.md), reset (70_reset_and_hazards.md), and taking the host's next event. -/

namespace Sys2Proof.Machine

/-! ## Ending a command -/

/-- `complete(st, v)` (R15, R76). -/
def State.complete (s : State) (st : Status) (v : Word) : State :=
  { s with response := some { status := st, value := v } }

/-- `raise E` is `complete(E, 0)` (R15): the block's whole error mechanism (R250, R257). -/
def State.raise (s : State) (e : Status) : State := s.complete e 0

/-! ## Free values -/

/-- A drawn byte (R14). -/
def drawByte (k : Nat) : Byte := (Config.draw k).setWidth 8

/-- A value drawn from 0..bound. -/
def drawUpTo (k bound : Nat) : Nat := (Config.draw k).toNat % (bound + 1)

/-- `count` bytes drawn independently, from draw number `k` on. -/
def drawBytes (k count : Nat) : List Byte := (List.range count).map fun i => drawByte (k + i)

/-! ## BUF -/

/-- The byte listed at an index, none if nothing has written it. -/
def lookupCell : List Host.Cell → Nat → Option Byte
  | [], _ => none
  | (k, v) :: cs, a => if a = k then some v else lookupCell cs a

/-- The cells with byte `b` at index `a`. -/
def insertCell : List Host.Cell → Nat → Byte → List Host.Cell
  | [], a, b => [(a, b)]
  | (k, v) :: cs, a, b =>
    if a < k then (a, b) :: (k, v) :: cs
    else if a = k then (a, b) :: cs
    else (k, v) :: insertCell cs a b

/-- Strictly rising indices, all at or above `lo`. -/
def cellsRise : Nat → List Host.Cell → Bool
  | _, [] => true
  | lo, (k, _) :: cs => decide (lo ≤ k) && cellsRise (k + 1) cs

/-- The canonical form of BUF: the indices rise strictly. (An unlisted index has no byte of its own, so no entry can equal
what an unlisted index holds.) -/
def Memory.wf (m : Memory) : Bool := cellsRise 0 m.cells

/-- Every listed index is an index of BUF (R50). -/
def Memory.within (m : Memory) (size : Nat) : Bool := m.cells.all fun cell => decide (cell.1 < size)

/-- `MemRead(i, 1)` (R51): the byte last written there (R57), or the byte drawn for it at reset (R281). -/
def Memory.read (m : Memory) (i : Nat) : Byte := (lookupCell m.cells i).getD (drawByte (m.unwritten + i))

/-- `MemWrite(i, 1, v)` (R51). -/
def Memory.write (m : Memory) (i : Nat) (v : Byte) : Memory := { m with cells := insertCell m.cells i v }

/-- The bytes at indices i, ..., i + count - 1. -/
def Memory.readList (m : Memory) (i : Nat) : Nat → List Byte
  | 0 => []
  | count + 1 => m.read i :: m.readList (i + 1) count

/-- Write bytes one after another from index `i` on. -/
def Memory.writeList (m : Memory) (i : Nat) : List Byte → Memory
  | [] => m
  | v :: vs => (m.write i v).writeList (i + 1) vs

/-- `for i in 0..cap: BUF[i] <- draw()` (R179). -/
def State.drawBuf (s : State) (cap : Nat) : State :=
  { s with buf := s.buf.writeList 0 (drawBytes s.draws cap), draws := s.draws + cap }

/-! ## FR -/

/-- FR.info[0..FR.info_len). -/
def Frame.infoPrefix (f : Frame) : List Byte := f.info.take f.infoLen.toNat

/-- FR.info[i]. -/
def Frame.infoAt (f : Frame) (i : Nat) : Byte := f.info.getD i 0

/-- FR.info[i] <- v. -/
def Frame.setInfo (f : Frame) (i : Nat) (v : Byte) : Frame := { f with info := f.info.set i v }

/-- The frame with the given info bytes, the rest of FR.info zero (R193). -/
def Frame.ofInfo (address control : Byte) (info : List Byte) (maxInfo : Nat) : Frame :=
  { address := address
    control := control
    infoLen := BitVec.ofNat 8 info.length
    info := info ++ List.replicate (maxInfo - info.length) 0 }

/-- Every field of FR drawn, with FR.info_len in 0..MAX_INFO (R203). -/
def State.drawFrame (s : State) : State :=
  { s with
    fr :=
      { address := drawByte s.draws
        control := drawByte (s.draws + 1)
        infoLen := BitVec.ofNat 8 (drawUpTo (s.draws + 2) s.params.maxInfo)
        info := drawBytes (s.draws + 3) s.params.maxInfo }
    draws := s.draws + 3 + s.params.maxInfo }

/-! ## Working state between commands -/

/-- The CRC register left unspecified (R28). -/
def State.drawCrc (s : State) : State :=
  { s with crc := Config.draw s.draws, draws := s.draws + 1 }

/-- The CRC register and the encoder's working state left unspecified (R28, R29). -/
def State.drawEncoder (s : State) : State :=
  { s with
    crc := Config.draw s.draws
    enc :=
      { phase := EncPhase.ofCode (drawUpTo (s.draws + 1) 7)
        wp := drawUpTo (s.draws + 2) s.params.bufSize
        ii := drawUpTo (s.draws + 3) s.params.maxInfo }
    draws := s.draws + 4 }

/-- The CRC register and the decoder's working state left unspecified (R28, R30). -/
def State.drawDecoder (s : State) : State :=
  { s with
    crc := Config.draw s.draws
    dec :=
      { phase := DecPhase.ofCode (drawUpTo (s.draws + 1) 6)
        n := drawUpTo (s.draws + 2) s.params.bufSize
        c := drawUpTo (s.draws + 3) s.params.bufSize
        fcsHi := drawByte (s.draws + 4)
        fcsHiRead := decide (drawUpTo (s.draws + 5) 1 = 1)
        cf := drawUpTo (s.draws + 6) s.params.bufSize }
    draws := s.draws + 7 }

/-! ## The host's events -/

/-- Reset (R280, R281): FR zero, every byte of BUF drawn anew, the working state at its reset values (log 8), the
configuration kept. The host's later events stay, and no response is held (log 11). -/
def State.applyReset (s : State) : State :=
  { s with
    fr := Frame.zero s.params.maxInfo
    buf := { cells := [], unwritten := s.draws }
    crc := 0
    enc := Encoder.atReset
    dec := Decoder.atReset
    response := none
    draws := s.draws + s.params.bufSize }

/-- An undefined command completes with InvalidArgument and changes no state (R75). -/
def State.undefinedCommand (s : State) : State := s.raise .invalidArgument

/-- The host's next event, and the state in which the block has taken it; none when the block is idle (R269). -/
def State.fetch (s : State) : Option (HostEvent × State) :=
  match s.input with
  | [] => none
  | e :: rest => some (e, { s with input := rest })

end Sys2Proof.Machine
end

