-- ==== Sys2Proof/Machine/ControlField.lean ====
section
/-! DEFINITION. The control-field codec (41_control_field.md), on the layouts of rules R80 to R86 of 30_encoding.md. -/

namespace Sys2Proof.Machine

/-- UTABLE (R135, R85): the (M1, M2) pair of each ucode 0 to 6. -/
def uTable : List (Byte × Byte) := [(0, 1), (3, 4), (3, 6), (0, 2), (0, 6), (3, 1), (2, 1)]

/-- The I-frame layout (R81), its fields truncated (R130). -/
def iControl (ns pf nr : Byte) : Byte :=
  0x01 ||| (seqField ns <<< 1) ||| (pfField pf <<< 4) ||| (seqField nr <<< 5)

/-- The S-frame layout (R82), its fields truncated (R130). -/
def sControl (scode pf nr : Byte) : Byte :=
  0x01 ||| (scodeField scode <<< 2) ||| (pfField pf <<< 4) ||| (seqField nr <<< 5)

/-- The U-frame layout (R83), P/F truncated (R130). -/
def uControl (m1 m2 pf : Byte) : Byte :=
  0x03 ||| (m1 <<< 2) ||| (pfField pf <<< 4) ||| (m2 <<< 5)

/-- A builder's success: the byte goes to FR.control and to the response (R131, R133, R135). -/
def State.loadControl (s : State) (x : Byte) : State :=
  State.complete { s with fr := { s.fr with control := x } } .ok (zext32 x)

/-- BUILD_I (R131). -/
def execBuildI (a b c : Byte) (s : State) : Host.Outcome State Fault Refusal :=
  .next (s.loadControl (iControl a b c))

/-- BUILD_S (R133). -/
def execBuildS (a b c : Byte) (s : State) : Host.Outcome State Fault Refusal :=
  .next (s.loadControl (sControl a b c))

/-- BUILD_U (R135): a ucode above 6 is no row of the table. -/
def execBuildU (a b : Byte) (s : State) : Host.Outcome State Fault Refusal :=
  .next (match uTable[a.toNat]? with
    | none => s.raise .unknownModifierCode
    | some (m1, m2) => s.loadControl (uControl m1 m2 b))

/-- The ucode whose (M1, M2) pair is given, 0xFF if none (R137). -/
def ucodeOf (m1 m2 : Byte) : Byte :=
  match uTable.findIdx? (· == (m1, m2)) with
  | some k => BitVec.ofNat 8 k
  | none => 0xFF

/-- P/F: bit 4 of a control byte (R81 to R83). -/
def ctrlPf (x : Byte) : Byte := (x >>> 4) &&& 0x01

/-- Bits 7..5 of a control byte: N(R), or M2 of a U-frame (R81 to R83). -/
def ctrlHigh (x : Byte) : Byte := x >>> 5

/-- Bits 3..1: N(S) of an I-frame (R81). -/
def ctrlNs (x : Byte) : Byte := (x >>> 1) &&& 0x07

/-- Bits 3..2: the S-code (R82), or M1 of a U-frame (R83). -/
def ctrlCode (x : Byte) : Byte := (x >>> 2) &&& 0x03

/-- CTRL_PARSE's result packing (R137). -/
def parseValue (kind pf f1 f2 uc : Byte) : Word :=
  zext32 kind ||| (zext32 pf <<< 4) ||| (zext32 f1 <<< 8) ||| (zext32 f2 <<< 16) ||| (zext32 uc <<< 24)

/-- CTRL_PARSE's result: the classifier of R80 and the fields of R81 to R83 (R137). -/
def parseControl (x : Byte) : Word :=
  if x.getLsbD 0 = false then parseValue 0 (ctrlPf x) (ctrlNs x) (ctrlHigh x) 0xFF
  else if x.getLsbD 1 = false then parseValue 1 (ctrlPf x) (ctrlCode x) (ctrlHigh x) 0xFF
  else parseValue 2 (ctrlPf x) (ctrlCode x) (ctrlHigh x) (ucodeOf (ctrlCode x) (ctrlHigh x))

/-- CTRL_PARSE (R137). -/
def execCtrlParse (a : Byte) (s : State) : Host.Outcome State Fault Refusal :=
  .next (s.complete .ok (parseControl a))

end Sys2Proof.Machine
end

