-- ==== Sys2Proof/Machine/Stuffing.lean ====
section
/-! DEFINITION. The byte-stuffer and byte-unstuffer (40_stuffing.md): the primitives ENCODE and DECODE use, and STUFF and
UNSTUFF. -/

namespace Sys2Proof.Machine

/-- The flag byte (R87). -/
def flagByte : Byte := 0x7E

/-- The escape byte (R88). -/
def escByte : Byte := 0x7D

/-- What an escaped byte is XORed with (R88). -/
def escXor : Byte := 0x20

/-- `stuff_bytes(v)` (R110). -/
def stuffBytes (v : Byte) : List Byte :=
  if v = flagByte ∨ v = escByte then [escByte, v ^^^ escXor] else [v]

/-- `Unstuff` (R112) at the cursor, given the input from the cursor on: the decoded byte and how many bytes it consumed. -/
def unstuff : List Byte → Except Status (Byte × Nat)
  | [] => .error .incompleteFrame
  | v :: rest =>
    if v = escByte then
      match rest with
      | [] => .error .malformedStream
      | y :: _ => .ok (y ^^^ escXor, 2)
    else .ok (v, 1)

/-- Writing the bytes `u` at the write pointer, if they fit within the capacity; nothing is written otherwise (R111, R172). -/
def writeUnit (cap : Nat) (u : List Byte) (m : Memory) (wp : Nat) : Except Status (Memory × Nat) :=
  if cap < wp + u.length then .error .bufferTooSmall else .ok (m.writeList wp u, wp + u.length)

/-- `StuffWrite(v, wp, cap)` (R111). -/
def stuffWrite (cap : Nat) (v : Byte) (m : Memory) (wp : Nat) : Except Status (Memory × Nat) :=
  writeUnit cap (stuffBytes v) m wp

/-- `RawWrite(v, wp, cap)` (R172). -/
def rawWrite (cap : Nat) (v : Byte) (m : Memory) (wp : Nat) : Except Status (Memory × Nat) :=
  writeUnit cap [v] m wp

/-- STUFF's result value (R114): the count, the first byte and the second byte, if there is one. -/
def stuffValue (out : List Byte) : Word :=
  BitVec.ofNat 32 out.length ||| (zext32 (out.getD 0 0) <<< 8) ||| (zext32 (out.getD 1 0) <<< 16)

/-- STUFF (R114). -/
def execStuff (a b : Byte) (s : State) : Host.Outcome State Fault Refusal :=
  .next (if b.toNat < (stuffBytes a).length then s.raise .bufferTooSmall
    else s.complete .ok (stuffValue (stuffBytes a)))

/-- UNSTUFF (R116): the input is the first min(c, 2) bytes of a, b (R115). -/
def execUnstuff (a b c : Byte) (s : State) : Host.Outcome State Fault Refusal :=
  .next (match unstuff ([a, b].take c.toNat) with
    | .error e => s.raise e
    | .ok (v, k) => s.complete .ok (zext32 v ||| (BitVec.ofNat 32 k <<< 8)))

end Sys2Proof.Machine
end

