-- ==== Sys2Proof/Machine/Checksum.lean ====
section
/-! DEFINITION. The CRC-16/ISO-HDLC generator, the FCS of a frame, and CRC_BUF (42_checksum.md). -/

namespace Sys2Proof.Machine

/-- `CrcInit` (R151). -/
def crcInit : Half := 0xFFFF

/-- One of the 8 bit-iterations of R152. -/
def crcShift (crc : Half) : Half :=
  if crc.getLsbD 15 then (crc <<< 1) ^^^ 0x1021 else crc <<< 1

/-- `CrcUpdate(crc, v)` (R152). -/
def crcUpdate (crc : Half) (v : Byte) : Half :=
  Nat.repeat crcShift 8 (crc ^^^ (zext16 (rev8 v) <<< 8))

/-- `CrcFinal(crc)` (R153). -/
def crcFinal (crc : Half) : Half := rev16 crc ^^^ 0xFFFF

/-- `crc16(s)` (R154). -/
def crc16 (s : List Byte) : Half := crcFinal (s.foldl crcUpdate crcInit)

/-- One of the 8 bit-iterations of the reflected form (R157). -/
def reflectedShift (r : Half) : Half :=
  if r.getLsbD 0 then (r >>> 1) ^^^ 0x8408 else r >>> 1

/-- `crc16_reflected(s)` (R157). -/
def crc16Reflected (s : List Byte) : Half :=
  s.foldl (fun r v => Nat.repeat reflectedShift 8 (r ^^^ zext16 v)) 0xFFFF ^^^ 0xFFFF

/-- The bytes one content byte contributes to the FCS (R155): itself, or its wire bytes. -/
def fcsUnit (scope : FcsScope) (v : Byte) : List Byte :=
  match scope with
  | .logical => [v]
  | .written => stuffBytes v

/-- The FCS of a frame (R155). -/
def fcsOf (scope : FcsScope) (f : Frame) : Half :=
  crc16 ((f.address :: f.control :: f.infoPrefix).flatMap (fcsUnit scope))

/-- FCS bits 15..8, which go on the wire first (R53, R174). -/
def fcsHigh (f : Half) : Byte := f.extractLsb' 8 8

/-- FCS bits 7..0. -/
def fcsLow (f : Half) : Byte := f.extractLsb' 0 8

/-- CRC_BUF (R156, R52). -/
def execCrcBuf (n : Half) (s : State) : Host.Outcome State Fault Refusal :=
  .next (if s.params.bufSize < n.toNat then s.raise .invalidArgument
    else s.drawCrc.complete .ok (zext32 (crc16 (s.buf.readList 0 n.toNat))))

end Sys2Proof.Machine
end

