-- ==== Sys2Proof/Machine/Decoder.lean ====
section
/-! DEFINITION. The frame decoder and DECODE (44_decoder.md, rules R190 to R205). The cursor is represented by the input
still to be read, `r`: with cursor c and length n, `r` is BUF[c..n) and `n - c` is its length. -/

namespace Sys2Proof.Machine

/-- All the values of a wire sequence read as units of one byte, or of two when the first is the escape byte (R89); none if
it ends in a dangling escape. -/
def unstuffAll : List Byte → Option (List Byte)
  | [] => some []
  | v :: rest =>
    if v = escByte then
      match rest with
      | [] => none
      | y :: rest' => (unstuffAll rest').map ((y ^^^ escXor) :: ·)
    else (unstuffAll rest).map (v :: ·)

/-- State AwaitStartFlag (R192): the input after the start flag. -/
def decodeStart : List Byte → Except Status (List Byte)
  | [] => .error .incompleteFrame
  | v :: r => if v = flagByte then .ok r else .error .malformedStream

/-- Unstuff one value and advance the cursor (R112, R194, R195, R199): the value and the input after it. -/
def decodeByte (r : List Byte) : Except Status (Byte × List Byte) :=
  match unstuff r with
  | .error e => .error e
  | .ok (v, k) => .ok (v, r.drop k)

/-- State Info (R196, R197): while more than 3 raw bytes remain, append one value to the info collected so far. Each pass
consumes at least one byte, so as many passes as there are bytes are enough (R293). -/
def decodeInfo (maxInfo : Nat) : Nat → List Byte → List Byte → Except Status (List Byte × List Byte)
  | 0, info, r => .ok (info, r)
  | passes + 1, info, r =>
    if r.length ≤ 3 then .ok (info, r)
    else if info.length = maxInfo then .error .malformedStream
    else
      match decodeByte r with
      | .error e => .error e
      | .ok (v, r') => decodeInfo maxInfo passes (info ++ [v]) r'

/-- State AwaitStopFlag (R201). -/
def decodeStop : List Byte → Except Status Unit
  | [] => .error .incompleteFrame
  | v :: _ => if v = flagByte then .ok () else .error .malformedStream

/-- The FCS the decoder computes (R200): over the decoded content, or over the raw bytes the Address, Control and Info
states consumed. -/
def decodeFcs (scope : FcsScope) (address control : Byte) (info consumed : List Byte) : Half :=
  match scope with
  | .logical => crc16 (address :: control :: info)
  | .written => crc16 consumed

/-- DECODE's run over the input BUF[0..n) (R190), its checks in the order of R258. -/
def decodeFrame (p : Params) (input : List Byte) : Except Status Frame := do
  let r ← decodeStart input
  let (address, r₁) ← decodeByte r
  let (control, r₂) ← decodeByte r₁
  let (info, r₃) ← decodeInfo p.maxInfo r₂.length [] r₂
  let (hi, r₄) ← decodeByte r₃
  let (lo, r₅) ← decodeByte r₄
  if joinBytes hi lo ≠ decodeFcs p.fcsScope address control info (r.take (r.length - r₃.length)) then
    .error .checksumMismatch
  else
    decodeStop r₅
    .ok (Frame.ofInfo address control info p.maxInfo)

/-- DECODE's success (R202): FR holds the frame, the working state is left unspecified (R28, R30). -/
def State.decodeOk (s : State) (f : Frame) : State :=
  (State.drawDecoder { s with fr := f }).complete .ok (zext32 f.infoLen)

/-- DECODE's failure after it has begun (R203): FR drawn. -/
def State.decodeFailed (s : State) (e : Status) : State := s.drawFrame.drawDecoder.raise e

/-- DECODE (R190, R204, R52). -/
def execDecode (n : Half) (s : State) : Host.Outcome State Fault Refusal :=
  .next (if s.params.bufSize < n.toNat then s.raise .invalidArgument
    else match decodeFrame s.params (s.buf.readList 0 n.toNat) with
      | .error e => s.decodeFailed e
      | .ok f => s.decodeOk f)

end Sys2Proof.Machine
end

