-- ==== Sys2Proof/Machine/Encoder.lean ====
section
/-! DEFINITION. The frame encoder and ENCODE (43_encoder.md, rules R170 to R180). -/

namespace Sys2Proof.Machine

/-- One write of the encoder: a raw byte (R172) or a stuffed one (R111). -/
inductive WireWrite where
  | raw (v : Byte)
  | stuffed (v : Byte)
deriving DecidableEq, Repr

/-- The wire bytes of a write. -/
def wireBytes : WireWrite → List Byte
  | .raw v => [v]
  | .stuffed v => stuffBytes v

/-- Perform one write under the capacity. -/
def performWrite (cap : Nat) (w : WireWrite) (m : Memory) (wp : Nat) : Except Status (Memory × Nat) :=
  match w with
  | .raw v => rawWrite cap v m wp
  | .stuffed v => stuffWrite cap v m wp

/-- The writes of ENCODE in order (R170, R171): StartFlag, Address, Control, Info, FcsHi, FcsLo, StopFlag. -/
def encodePlan (scope : FcsScope) (f : Frame) : List WireWrite :=
  [.raw flagByte, .stuffed f.address, .stuffed f.control]
    ++ f.infoPrefix.map .stuffed
    ++ [.stuffed (fcsHigh (fcsOf scope f)), .stuffed (fcsLow (fcsOf scope f)), .raw flagByte]

/-- Perform writes one after another; the first that does not fit ends the run (R170). -/
def performWrites (cap : Nat) : List WireWrite → Memory → Nat → Except Status (Memory × Nat)
  | [], m, wp => .ok (m, wp)
  | w :: ws, m, wp =>
    match performWrite cap w m wp with
    | .error e => .error e
    | .ok (m', wp') => performWrites cap ws m' wp'

/-- The bytes ENCODE stuffs (R171): address, control, info and the FCS, high byte first. -/
def stuffedContent (scope : FcsScope) (f : Frame) : List Byte :=
  f.address :: f.control :: (f.infoPrefix ++ [fcsHigh (fcsOf scope f), fcsLow (fcsOf scope f)])

/-- The encoded frame (R87). -/
def wireFrame (scope : FcsScope) (f : Frame) : List Byte :=
  flagByte :: ((stuffedContent scope f).flatMap stuffBytes ++ [flagByte])

/-- E: how many of the stuffed bytes equal 0x7E or 0x7D (R176). -/
def escapedCount (scope : FcsScope) (f : Frame) : Nat :=
  (stuffedContent scope f).countP fun v => decide (v = flagByte ∨ v = escByte)

/-- K, the encoded length (R176). -/
def encodedLength (scope : FcsScope) (f : Frame) : Nat := 6 + f.infoLen.toNat + escapedCount scope f

/-- ENCODE's success (R178): BUF written, the working state left unspecified (R28, R29), value the count of bytes. -/
def State.encodeOk (s : State) (m : Memory) (wp : Nat) : State :=
  (State.drawEncoder { s with buf := m }).complete .ok (BitVec.ofNat 32 wp)

/-- ENCODE's failure after it has begun (R179): BUF[0..cap) drawn. -/
def State.encodeFailed (s : State) (cap : Nat) (e : Status) : State := (s.drawBuf cap).drawEncoder.raise e

/-- ENCODE (R170, R52). -/
def execEncode (n : Half) (s : State) : Host.Outcome State Fault Refusal :=
  .next (if s.params.bufSize < n.toNat then s.raise .invalidArgument
    else match performWrites n.toNat (encodePlan s.params.fcsScope s.fr) s.buf 0 with
      | .error e => s.encodeFailed n.toNat e
      | .ok (m, wp) => s.encodeOk m wp)

end Sys2Proof.Machine
end

