-- ==== Sys2Proof/Machine/HostAccess.lean ====
section
/-! DEFINITION. The host access commands NOP to RD_BUF (45_host_access.md). -/

namespace Sys2Proof.Machine

/-- NOP (R220). -/
def execNop (s : State) : Host.Outcome State Fault Refusal := .next (s.complete .ok 0)

/-- WR_ADDR (R221). -/
def execWrAddr (a : Byte) (s : State) : Host.Outcome State Fault Refusal :=
  .next (State.complete { s with fr := { s.fr with address := a } } .ok 0)

/-- WR_CTRL (R222): any byte is accepted (R24). -/
def execWrCtrl (a : Byte) (s : State) : Host.Outcome State Fault Refusal :=
  .next (State.complete { s with fr := { s.fr with control := a } } .ok 0)

/-- WR_LEN (R224). -/
def execWrLen (a : Byte) (s : State) : Host.Outcome State Fault Refusal :=
  .next (if s.params.maxInfo < a.toNat then s.raise .invalidArgument
    else State.complete { s with fr := { s.fr with infoLen := a } } .ok 0)

/-- WR_INFO (R225). -/
def execWrInfo (a b : Byte) (s : State) : Host.Outcome State Fault Refusal :=
  .next (if s.params.maxInfo ≤ a.toNat then s.raise .invalidArgument
    else State.complete { s with fr := s.fr.setInfo a.toNat b } .ok 0)

/-- RD_ADDR (R226). -/
def execRdAddr (s : State) : Host.Outcome State Fault Refusal := .next (s.complete .ok (zext32 s.fr.address))

/-- RD_CTRL (R227). -/
def execRdCtrl (s : State) : Host.Outcome State Fault Refusal := .next (s.complete .ok (zext32 s.fr.control))

/-- RD_LEN (R228). -/
def execRdLen (s : State) : Host.Outcome State Fault Refusal := .next (s.complete .ok (zext32 s.fr.infoLen))

/-- RD_INFO (R229): a byte at or above FR.info_len is read as it is held (R22). -/
def execRdInfo (a : Byte) (s : State) : Host.Outcome State Fault Refusal :=
  .next (if s.params.maxInfo ≤ a.toNat then s.raise .invalidArgument
    else s.complete .ok (zext32 (s.fr.infoAt a.toNat)))

/-- CLR_FRAME (R230). -/
def execClrFrame (s : State) : Host.Outcome State Fault Refusal :=
  .next (State.complete { s with fr := Frame.zero s.params.maxInfo } .ok 0)

/-- WR_BUF (R231, R52). -/
def execWrBuf (n : Half) (c : Byte) (s : State) : Host.Outcome State Fault Refusal :=
  .next (if s.params.bufSize ≤ n.toNat then s.raise .invalidArgument
    else State.complete { s with buf := s.buf.write n.toNat c } .ok 0)

/-- RD_BUF (R232, R52). -/
def execRdBuf (n : Half) (s : State) : Host.Outcome State Fault Refusal :=
  .next (if s.params.bufSize ≤ n.toNat then s.raise .invalidArgument
    else s.complete .ok (zext32 (s.buf.read n.toNat)))

end Sys2Proof.Machine
end

