-- ==== Sys2Proof/Machine/Dispatch.lean ====
section
/-! DEFINITION. One arm for each command of the opcode map (rule R72 of 30_encoding.md). -/

namespace Sys2Proof.Machine

def exec (i : Instr) (s : State) : Host.Outcome State Fault Refusal :=
  match i with
  | .nop => Sys2Proof.Machine.execNop s
  | .wrAddr a => Sys2Proof.Machine.execWrAddr a s
  | .wrCtrl a => Sys2Proof.Machine.execWrCtrl a s
  | .wrLen a => Sys2Proof.Machine.execWrLen a s
  | .wrInfo a b => Sys2Proof.Machine.execWrInfo a b s
  | .rdAddr => Sys2Proof.Machine.execRdAddr s
  | .rdCtrl => Sys2Proof.Machine.execRdCtrl s
  | .rdLen => Sys2Proof.Machine.execRdLen s
  | .rdInfo a => Sys2Proof.Machine.execRdInfo a s
  | .clrFrame => Sys2Proof.Machine.execClrFrame s
  | .wrBuf n c => Sys2Proof.Machine.execWrBuf n c s
  | .rdBuf n => Sys2Proof.Machine.execRdBuf n s
  | .stuff a b => Sys2Proof.Machine.execStuff a b s
  | .unstuff a b c => Sys2Proof.Machine.execUnstuff a b c s
  | .buildI a b c => Sys2Proof.Machine.execBuildI a b c s
  | .buildS a b c => Sys2Proof.Machine.execBuildS a b c s
  | .buildU a b => Sys2Proof.Machine.execBuildU a b s
  | .ctrlParse a => Sys2Proof.Machine.execCtrlParse a s
  | .crcBuf n => Sys2Proof.Machine.execCrcBuf n s
  | .encode n => Sys2Proof.Machine.execEncode n s
  | .decode n => Sys2Proof.Machine.execDecode n s

end Sys2Proof.Machine
end

