-- ==== Sys2Proof/Machine/Step.lean ====
section
/-! DEFINITION. One step: the block takes the host's next event (rules R58 and R61 of 20_memory.md, R280 of
70_reset_and_hazards.md). A command runs whole within its step. With no event left the block is idle and keeps its state
(rule R269 of 60_exceptions.md). -/

namespace Sys2Proof.Machine

/-- One step of the block. -/
def step (s : State) : Host.Outcome State Fault Refusal :=
  match s.fetch with
  | none => .next s
  | some (.reset, t) => .next t.applyReset
  | some (.command w, t) =>
    match decode w with
    | .error _ => .next t.undefinedCommand
    | .ok i => exec i t

/-- The host issues the word next: it stands first among the events still to come (log 1). -/
def State.withFetchWord (s : State) (nbits w : Nat) : State :=
  { s with input := .command (tableWord nbits w) :: s.input }

end Sys2Proof.Machine
end

