-- ==== Sys2Proof/Machine/EncoderSteps.lean ====
section
/-! DEFINITION. The per-byte encoder (rule R181 of 43_encoder.md) over the working state of rules R28 and R29 of 10_state.md:
one write a step, the CRC built up in the CRC register. Its responses and end states must be those of ENCODE. -/

namespace Sys2Proof.Machine

/-- What one per-byte step of a command leaves: the command still running, or its response given. -/
inductive Progress where
  | running (s : State)
  | ended (s : State)
deriving DecidableEq, Repr

/-- Run per-byte steps until the command ends; none when `fuel` steps are not enough. -/
def runSteps (f : State → Progress) : Nat → State → Option State
  | 0, _ => none
  | fuel + 1, s =>
    match f s with
    | .ended t => some t
    | .running t => runSteps f fuel t

/-- The working state when ENCODE starts (R28, R29). The info index, which R29 gives a value in the Info phase alone, keeps the
unspecified value it had (DESIGN CHOICE, log 19). -/
def State.encodeBegin (s : State) : State :=
  { s with crc := crcInit, enc := { s.enc with phase := .startFlag, wp := 0 } }

/-- Feed one content byte to the CRC register: the bytes R155 names for the FCS_SCOPE in force (R181). -/
def State.feedCrc (s : State) (v : Byte) : State :=
  { s with crc := (fcsUnit s.params.fcsScope v).foldl crcUpdate s.crc }

/-- One write of the encoder, then the given phase; a write that does not fit ends the command (R179, R181). -/
def State.encodeWrite (s : State) (cap : Nat) (w : WireWrite) (next : EncPhase) : Progress :=
  match performWrite cap w s.buf s.enc.wp with
  | .error e => .ended (s.encodeFailed cap e)
  | .ok (m, wp) => .running { s with buf := m, enc := { s.enc with phase := next, wp := wp } }

/-- The phase after a content byte: Info while FR.info has bytes left from index `ii` on, else FcsHi (R181). -/
def encodeNext (s : State) (ii : Nat) : EncPhase := if ii < s.fr.infoPrefix.length then .info else .fcsHi

/-- One per-byte step of ENCODE with capacity `cap` (R181). The Control step sets the info index for the Info phase, whether or
not that follows, and Done is a step of its own that writes nothing and ends the command (log 19). -/
def encodeStep (cap : Nat) (s : State) : Progress :=
  match s.enc.phase with
  | .startFlag => s.encodeWrite cap (.raw flagByte) .address
  | .address => (s.feedCrc s.fr.address).encodeWrite cap (.stuffed s.fr.address) .control
  | .control =>
    State.encodeWrite { s.feedCrc s.fr.control with enc := { s.enc with ii := 0 } }
      cap (.stuffed s.fr.control) (encodeNext s 0)
  | .info =>
    State.encodeWrite
      { s.feedCrc (s.fr.infoAt s.enc.ii) with enc := { s.enc with ii := s.enc.ii + 1 } }
      cap (.stuffed (s.fr.infoAt s.enc.ii)) (encodeNext s (s.enc.ii + 1))
  | .fcsHi => s.encodeWrite cap (.stuffed (fcsHigh (crcFinal s.crc))) .fcsLo
  | .fcsLo => s.encodeWrite cap (.stuffed (fcsLow (crcFinal s.crc))) .stopFlag
  | .stopFlag => s.encodeWrite cap (.raw flagByte) .done
  | .done => .ended (s.encodeOk s.buf s.enc.wp)

/-- ENCODE run byte by byte: after the capacity check, one step at a time, at most FR.info_len + 7 of them (R181, R293). -/
def State.encodeByBytes (s : State) (n : Half) : Option State :=
  if s.params.bufSize < n.toNat then some (s.raise .invalidArgument)
  else runSteps (encodeStep n.toNat) (s.fr.infoLen.toNat + 7) s.encodeBegin

end Sys2Proof.Machine
end

