-- ==== Sys2Proof/Machine/DecoderSteps.lean ====
section
/-! DEFINITION. The per-byte decoder (rule R210 of 44_decoder.md) over the working state of rules R28 and R30 of 10_state.md
and over FR: one unit a step. Its responses and end states must be those of DECODE. The FCS is built up in the CRC register, from
the bytes decoded (LOGICAL) or consumed (WRITTEN). What R210 leaves open is log 19. -/

namespace Sys2Proof.Machine

/-- FR zeroed and the working state set when DECODE starts (R193, R28, R30). The FCS high byte and `cf`, which R30 gives values
in the FCS state alone, keep the unspecified values they had (DESIGN CHOICE, log 19). -/
def State.decodeBegin (s : State) (n : Nat) : State :=
  { s with
    fr := Frame.zero s.params.maxInfo
    crc := crcInit
    dec := { s.dec with phase := .awaitStartFlag, n := n, c := 0, fcsHiRead := false } }

/-- The input from the cursor on, BUF[c..n). -/
def State.decodeRest (s : State) : List Byte := s.buf.readList s.dec.c (s.dec.n - s.dec.c)

/-- Unstuff one unit at the cursor and go on with its value and its size; an error ends the command (R203). -/
def State.decodeUnit (s : State) (goOn : Byte → Nat → Progress) : Progress :=
  match unstuff s.decodeRest with
  | .error e => .ended (s.decodeFailed e)
  | .ok (v, k) => goOn v k

/-- The bytes a unit contributes to the FCS (R155, R200): its value under LOGICAL, the raw bytes consumed under WRITTEN. -/
def decodeFcsUnit (scope : FcsScope) (v : Byte) (raw : List Byte) : List Byte :=
  match scope with
  | .logical => [v]
  | .written => raw

/-- A unit of the Address, Control or Info state: FR takes the value, the CRC register the bytes that R155 names for the
FCS_SCOPE in force, and the cursor advances. -/
def State.decodeContent (s : State) (store : Frame → Byte → Frame) (enter : State → State) : Progress :=
  s.decodeUnit fun v k =>
    .running (enter
      { s with
        fr := store s.fr v
        crc := (decodeFcsUnit s.params.fcsScope v (s.decodeRest.take k)).foldl crcUpdate s.crc
        dec := { s.dec with c := s.dec.c + k } })

/-- Enter the Control state. -/
def State.enterControl (s : State) : State := { s with dec := { s.dec with phase := .control } }

/-- Enter the FCS state: under WRITTEN the cursor is held in `cf` (R30). -/
def State.enterFcs (s : State) : State :=
  { s with
    dec :=
      { s.dec with
        phase := .fcs
        fcsHiRead := false
        cf := match s.params.fcsScope with
          | .logical => s.dec.cf
          | .written => s.dec.c } }

/-- Enter the Info state while more than 3 raw bytes remain, else the FCS state; the test consumes nothing (R196), so it is no
step of its own and Info takes zero or more steps (R210). -/
def State.enterInfo (s : State) : State :=
  if s.dec.n - s.dec.c ≤ 3 then s.enterFcs else { s with dec := { s.dec with phase := .info } }

/-- FR.info[FR.info_len] <- v; FR.info_len <- FR.info_len + 1 (R190). -/
def Frame.appendInfo (f : Frame) (v : Byte) : Frame :=
  { f with info := f.info.set f.infoLen.toNat v, infoLen := f.infoLen + 1 }

/-- One half of the FCS state (R199, R200): the high byte is held; with the low byte the FCS that the CRC register gives (R153) is
compared. -/
def State.decodeFcsHalf (s : State) : Progress :=
  s.decodeUnit fun v k =>
    if s.dec.fcsHiRead = false then
      .running { s with dec := { s.dec with fcsHi := v, fcsHiRead := true, c := s.dec.c + k } }
    else if joinBytes s.dec.fcsHi v = crcFinal s.crc then
      .running { s with dec := { s.dec with phase := .awaitStopFlag, c := s.dec.c + k } }
    else .ended (s.decodeFailed .checksumMismatch)

/-- A raw flag required at the cursor (R192, R201). -/
def State.decodeFlag (s : State) (next : DecPhase) : Progress :=
  if s.dec.n ≤ s.dec.c then .ended (s.decodeFailed .incompleteFrame)
  else if s.buf.read s.dec.c = flagByte then
    .running { s with dec := { s.dec with phase := next, c := s.dec.c + 1 } }
  else .ended (s.decodeFailed .malformedStream)

/-- One per-byte step of DECODE (R210). Done is a step of its own that consumes nothing and ends the command (log 19). -/
def decodeStep (s : State) : Progress :=
  match s.dec.phase with
  | .awaitStartFlag => s.decodeFlag .address
  | .address => s.decodeContent (fun f v => { f with address := v }) State.enterControl
  | .control => s.decodeContent (fun f v => { f with control := v }) State.enterInfo
  | .info =>
    if s.fr.infoLen.toNat = s.params.maxInfo then .ended (s.decodeFailed .malformedStream)
    else s.decodeContent Frame.appendInfo State.enterInfo
  | .fcs => s.decodeFcsHalf
  | .awaitStopFlag => s.decodeFlag .done
  | .done => .ended (s.decodeOk s.fr)

/-- DECODE run byte by byte: after the length check, one step at a time, at most LEN + 1 of them (R210, R293). -/
def State.decodeByBytes (s : State) (n : Half) : Option State :=
  if s.params.bufSize < n.toNat then some (s.raise .invalidArgument)
  else runSteps decodeStep (n.toNat + 1) (s.decodeBegin n.toNat)

end Sys2Proof.Machine
end

