-- ==== Sys2Proof/WellFormed.lean ====
section
/-! DEFINITION. Well-formedness. Every command with operands of its format's widths is legal: no operand value and no bit
pattern inside a defined opcode is reserved (rule R74 of 30_encoding.md), so the widths in `Instr` are the whole check.
The build parameters have ranges (rules R6 and R7 of 00_scope.md). -/

namespace Sys2Proof

/-- Every command is well formed, whatever its operands (R74); an operand out of range makes the command answer
InvalidArgument when it runs (R251), it does not make the word illegal. -/
def Instr.wellFormed : Instr → Bool
  | .nop | .rdAddr | .rdCtrl | .rdLen | .clrFrame => true
  | .wrAddr _ | .wrCtrl _ | .wrLen _ | .rdInfo _ | .ctrlParse _ => true
  | .wrInfo _ _ | .stuff _ _ | .buildU _ _ => true
  | .wrBuf _ _ | .rdBuf _ | .crcBuf _ | .encode _ | .decode _ => true
  | .unstuff _ _ _ | .buildI _ _ _ | .buildS _ _ _ => true

/-- The ranges of MAX_INFO (R6) and BUF_SIZE (R7). -/
abbrev Params.Valid (p : Params) : Prop :=
  p.maxInfo ≤ 255 ∧ 2 * p.maxInfo + 10 ≤ p.bufSize ∧ p.bufSize ≤ 65535

end Sys2Proof
end

