-- ==== Sys2Proof/Safety.lean ====
section
/-! DEFINITION. What holds in every state the block can reach (rule R21 of 10_state.md, rule R50 of 20_memory.md), and short
forms the statements use. -/

namespace Sys2Proof.Machine

/-- The build parameters are in range (R6, R7), FR.info holds MAX_INFO bytes (R20), FR.info_len is at most MAX_INFO (R21),
and BUF is in canonical form and lists no index outside BUF (R50, R51). -/
abbrev State.Inv (s : State) : Prop :=
  s.params.Valid ∧ s.fr.info.length = s.params.maxInfo ∧ s.fr.infoLen.toNat ≤ s.params.maxInfo
    ∧ s.buf.wf = true ∧ s.buf.within s.params.bufSize = true

/-- The state with OK and a value as its response (R76). -/
abbrev State.answerOk (s : State) (v : Word) : State := { s with response := some { status := .ok, value := v } }

/-- The state with an error and value 0 as its response (R76). -/
abbrev State.answerError (s : State) (e : Status) : State := { s with response := some { status := e, value := 0 } }

/-- The status of the response held, none if there is none. -/
abbrev State.status? (s : State) : Option Status := s.response.map Response.status

/-- The byte equals neither 0x7E nor 0x7D, so it is not escaped on the wire (R88). -/
abbrev Unescaped (v : Byte) : Prop := v ≠ 0x7E ∧ v ≠ 0x7D

/-- CTRL_PARSE of `x` completes with OK and exactly these fields of its value (R137), and changes nothing. -/
abbrev ParsesTo (s : State) (x : Byte) (kind pf : BitVec 4) (f1 f2 uc : Byte) : Prop :=
  exec (.ctrlParse x) s = .next (s.answerOk (wordABC uc f2 f1 (pf.setWidth 8 <<< 4 ||| kind.setWidth 8)))

/-- The (M1, M2) pairs of the U-frame modifier table, in the order of its ucodes (R85). -/
abbrev uPairs : List (BitVec 2 × BitVec 3) := [(0, 1), (3, 4), (3, 6), (0, 2), (0, 6), (3, 1), (2, 1)]

/-- The decoder enters the FCS state with exactly `rest` left when `body` holds the units of the address, the control byte and
`info` (R196): at most 3 bytes are left, and more were before the last info byte's unit, which 3 bytes after a unit of one byte
make sure of, and 2 after an escape pair. -/
abbrev EntersFcs (body info rest : List Byte) : Prop :=
  rest.length ≤ 3 ∧ (info = [] ∨ rest.length = 3
    ∨ (rest.length = 2 ∧ ∃ (units : List Byte) (y : Byte), body = units ++ [0x7D, y] ∧ (unstuffAll units).isSome = true))

/-- The frame's FCS under a scope, high byte and low byte (R53, R155). -/
abbrev State.fcsBytes (s : State) : Byte × Byte :=
  (fcsHigh (fcsOf s.params.fcsScope s.fr), fcsLow (fcsOf s.params.fcsScope s.fr))

/-- K for the frame in FR (R176). -/
abbrev State.encodedLength (s : State) : Nat := Machine.encodedLength s.params.fcsScope s.fr

end Sys2Proof.Machine
end

