-- ==== Sys2Proof/Certificates/Slice0/Obligations.lean ====
section
/-! DEFINITION. The statements about the block. Each docstring names the rule of spec/ it formalises. -/

open Sys2Proof Sys2Proof.Machine

/-! ## Host access commands -/

/-- R220: every word whose low byte is 0x00 is NOP, and NOP completes with OK, value 0 and changes nothing. -/
def Obligations.NopDoesNothing : Prop :=
  (∀ a b c : Byte, decode (wordABC c b a 0x00) = .ok .nop) ∧ ∀ s : State, exec .nop s = .next (s.answerOk 0)

/-- R221, R222: WR_ADDR and WR_CTRL accept every byte and write that field of FR alone. -/
def Obligations.WrAddrAndWrCtrlWriteTheirField : Prop :=
  (∀ a b c : Byte, decode (wordABC c b a 0x01) = .ok (.wrAddr a) ∧ decode (wordABC c b a 0x02) = .ok (.wrCtrl a))
    ∧ ∀ (s : State) (a : Byte),
      exec (.wrAddr a) s = .next (State.answerOk { s with fr := { s.fr with address := a } } 0)
        ∧ exec (.wrCtrl a) s = .next (State.answerOk { s with fr := { s.fr with control := a } } 0)

/-- R224: WR_LEN refuses a length above MAX_INFO and otherwise writes FR.info_len alone. -/
def Obligations.WrLenWritesInfoLenUpToMaxInfo : Prop :=
  (∀ a b c : Byte, decode (wordABC c b a 0x03) = .ok (.wrLen a))
    ∧ ∀ (s : State) (a : Byte),
      (s.params.maxInfo < a.toNat → exec (.wrLen a) s = .next (s.answerError .invalidArgument))
        ∧ (a.toNat ≤ s.params.maxInfo →
          exec (.wrLen a) s = .next (State.answerOk { s with fr := { s.fr with infoLen := a } } 0))

/-- R225: WR_INFO refuses an index at or above MAX_INFO and otherwise writes that info byte alone. -/
def Obligations.WrInfoWritesOneInfoByte : Prop :=
  (∀ a b c : Byte, decode (wordABC c b a 0x04) = .ok (.wrInfo a b))
    ∧ ∀ (s : State) (a b : Byte), s.Inv →
      (s.params.maxInfo ≤ a.toNat → exec (.wrInfo a b) s = .next (s.answerError .invalidArgument))
        ∧ (a.toNat < s.params.maxInfo → ∃ info : List Byte,
          exec (.wrInfo a b) s = .next (State.answerOk { s with fr := { s.fr with info := info } } 0)
            ∧ info.length = s.fr.info.length
            ∧ info[a.toNat]? = some b
            ∧ ∀ j, j ≠ a.toNat → info[j]? = s.fr.info[j]?)

/-- R226, R227, R228: RD_ADDR, RD_CTRL and RD_LEN give their field of FR and change nothing; after reset RD_ADDR gives 0,
after a DECODE that failed RD_CTRL gives a draw, and RD_LEN's value is at most MAX_INFO. -/
def Obligations.FieldReadsGiveTheField : Prop :=
  (∀ a b c : Byte, decode (wordABC c b a 0x05) = .ok .rdAddr ∧ decode (wordABC c b a 0x06) = .ok .rdCtrl
      ∧ decode (wordABC c b a 0x07) = .ok .rdLen)
    ∧ (∀ s : State,
      exec .rdAddr s = .next (s.answerOk (zext32 s.fr.address))
        ∧ exec .rdCtrl s = .next (s.answerOk (zext32 s.fr.control))
        ∧ exec .rdLen s = .next (s.answerOk (zext32 s.fr.infoLen)))
    ∧ (∀ p : Params, exec .rdAddr (State.resetWith p) = .next ((State.resetWith p).answerOk 0))
    ∧ (∀ (s t : State) (n : Half), exec (.decode n) s = .next t → n.toNat ≤ s.params.bufSize → t.status? ≠ some .ok →
      ∃ k, exec .rdCtrl t = .next (t.answerOk (zext32 (drawByte k))))
    ∧ ∀ s : State, s.Inv → ∃ v : Word, exec .rdLen s = .next (s.answerOk v) ∧ v.toNat ≤ s.params.maxInfo

/-- R229: RD_INFO refuses an index at or above MAX_INFO and otherwise gives the stored info byte, which after a successful
DECODE is 0 at and above FR.info_len. -/
def Obligations.RdInfoGivesTheStoredByte : Prop :=
  (∀ a b c : Byte, decode (wordABC c b a 0x08) = .ok (.rdInfo a))
    ∧ (∀ (s : State) (a : Byte), s.Inv →
      (s.params.maxInfo ≤ a.toNat → exec (.rdInfo a) s = .next (s.answerError .invalidArgument))
        ∧ (a.toNat < s.params.maxInfo → ∃ v : Byte, s.fr.info[a.toNat]? = some v
          ∧ exec (.rdInfo a) s = .next (s.answerOk (zext32 v))))
    ∧ ∀ (s t : State) (n : Half) (a : Byte), s.Inv → exec (.decode n) s = .next t → t.status? = some .ok →
      t.fr.infoLen.toNat ≤ a.toNat → a.toNat < s.params.maxInfo → exec (.rdInfo a) t = .next (t.answerOk 0)

/-- R230: CLR_FRAME zeroes every field of FR, which is then as after reset, and touches nothing else. -/
def Obligations.ClrFrameZeroesTheFrame : Prop :=
  (∀ a b c : Byte, decode (wordABC c b a 0x09) = .ok .clrFrame)
    ∧ ∀ s : State,
      exec .clrFrame s = .next (State.answerOk
          { s with fr := { address := 0, control := 0, infoLen := 0, info := List.replicate s.params.maxInfo 0 } } 0)
        ∧ (State.resetWith s.params).fr
          = { address := 0, control := 0, infoLen := 0, info := List.replicate s.params.maxInfo 0 }

/-- R231: WR_BUF refuses an index at or above BUF_SIZE and otherwise writes that byte of BUF alone. -/
def Obligations.WrBufWritesOneByte : Prop :=
  (∀ (n : Half) (c : Byte), decode (wordNC c n 0x0A) = .ok (.wrBuf n c))
    ∧ ∀ (s : State) (n : Half) (c : Byte),
      (s.params.bufSize ≤ n.toNat → exec (.wrBuf n c) s = .next (s.answerError .invalidArgument))
        ∧ (n.toNat < s.params.bufSize → ∃ m : Memory,
          exec (.wrBuf n c) s = .next (State.answerOk { s with buf := m } 0)
            ∧ m.read n.toNat = c
            ∧ ∀ i, i ≠ n.toNat → m.read i = s.buf.read i)

/-- R232: RD_BUF refuses an index at or above BUF_SIZE and otherwise gives that byte of BUF and changes nothing; the byte is a
draw after reset, and below the capacity of an ENCODE that failed. -/
def Obligations.RdBufGivesTheByte : Prop :=
  (∀ (n : Half) (c : Byte), decode (wordNC c n 0x0B) = .ok (.rdBuf n))
    ∧ (∀ (s : State) (n : Half),
      (s.params.bufSize ≤ n.toNat → exec (.rdBuf n) s = .next (s.answerError .invalidArgument))
        ∧ (n.toNat < s.params.bufSize → exec (.rdBuf n) s = .next (s.answerOk (zext32 (s.buf.read n.toNat)))))
    ∧ (∀ (p : Params) (n : Half), n.toNat < p.bufSize →
      ∃ k, exec (.rdBuf n) (State.resetWith p) = .next ((State.resetWith p).answerOk (zext32 (drawByte k))))
    ∧ ∀ (s t : State) (cap n : Half), exec (.encode cap) s = .next t → t.status? = some .bufferTooSmall →
      n.toNat < cap.toNat → ∃ k, exec (.rdBuf n) t = .next (t.answerOk (zext32 (drawByte k)))

/-! ## Stuffing -/

/-- R114: STUFF gives the count and the wire bytes of its byte, or BufferTooSmall when the room is too small, and changes no
state. -/
def Obligations.StuffGivesTheWireBytes : Prop :=
  (∀ a b c : Byte, decode (wordABC c b a 0x10) = .ok (.stuff a b))
    ∧ ∀ (s : State) (a b : Byte),
      ((a = 0x7E ∨ a = 0x7D) → b.toNat < 2 → exec (.stuff a b) s = .next (s.answerError .bufferTooSmall))
        ∧ ((a = 0x7E ∨ a = 0x7D) → 2 ≤ b.toNat →
          exec (.stuff a b) s = .next (s.answerOk (wordABC 0x00 (a ^^^ 0x20) 0x7D 0x02)))
        ∧ (Unescaped a → b = 0 → exec (.stuff a b) s = .next (s.answerError .bufferTooSmall))
        ∧ (Unescaped a → b ≠ 0 → exec (.stuff a b) s = .next (s.answerOk (wordABC 0x00 0x00 a 0x01)))

/-- R115, R116: UNSTUFF gives the decoded byte and the count consumed; with nothing available it answers IncompleteFrame and on
a dangling escape MalformedStream; every avail from 2 on is the same; it changes no state. -/
def Obligations.UnstuffDecodesOneUnit : Prop :=
  (∀ a b c : Byte, decode (wordABC c b a 0x11) = .ok (.unstuff a b c))
    ∧ ∀ (s : State) (a b c : Byte),
      (c = 0 → exec (.unstuff a b c) s = .next (s.answerError .incompleteFrame))
        ∧ (c = 1 → a = 0x7D → exec (.unstuff a b c) s = .next (s.answerError .malformedStream))
        ∧ (c ≠ 0 → a ≠ 0x7D → exec (.unstuff a b c) s = .next (s.answerOk (wordABC 0x00 0x00 0x01 a)))
        ∧ (2 ≤ c.toNat → a = 0x7D → exec (.unstuff a b c) s = .next (s.answerOk (wordABC 0x00 0x00 0x02 (b ^^^ 0x20))))

/-- R113: unstuffing the stuffed form of a byte, whatever follows it, gives the byte and the count of its wire bytes. -/
def Obligations.UnstuffInvertsStuff : Prop :=
  ∀ (v : Byte) (rest : List Byte), unstuff (stuffBytes v ++ rest) = .ok (v, (stuffBytes v).length)

/-! ## Control field -/

/-- R81, R131: BUILD_I writes to FR.control and answers the byte with bit 0 = 1, bits 3..1 = N(S), bit 4 = P/F and bits 7..5 =
N(R), each operand truncated to its field; nothing else changes. -/
def Obligations.BuildIPacksTheIFrameByte : Prop :=
  (∀ a b c : Byte, decode (wordABC c b a 0x20) = .ok (.buildI a b c))
    ∧ ∀ (s : State) (a b c : Byte), ∃ x : Byte,
      exec (.buildI a b c) s = .next (State.answerOk { s with fr := { s.fr with control := x } } (zext32 x))
        ∧ x.extractLsb' 0 1 = 1 ∧ x.extractLsb' 1 3 = a.extractLsb' 0 3 ∧ x.extractLsb' 4 1 = b.extractLsb' 0 1
        ∧ x.extractLsb' 5 3 = c.extractLsb' 0 3

/-- R82, R133: BUILD_S writes to FR.control and answers the byte with bits 1..0 = 01, bits 3..2 = the S-code, bit 4 = P/F and
bits 7..5 = N(R), each operand truncated to its field; nothing else changes. -/
def Obligations.BuildSPacksTheSFrameByte : Prop :=
  (∀ a b c : Byte, decode (wordABC c b a 0x21) = .ok (.buildS a b c))
    ∧ ∀ (s : State) (a b c : Byte), ∃ x : Byte,
      exec (.buildS a b c) s = .next (State.answerOk { s with fr := { s.fr with control := x } } (zext32 x))
        ∧ x.extractLsb' 0 2 = 1 ∧ x.extractLsb' 2 2 = a.extractLsb' 0 2 ∧ x.extractLsb' 4 1 = b.extractLsb' 0 1
        ∧ x.extractLsb' 5 3 = c.extractLsb' 0 3

/-- R83, R135: BUILD_U with a ucode of the table writes to FR.control and answers the byte with bits 1..0 = 11, bits 3..2 = M1,
bit 4 = P/F and bits 7..5 = M2; with another ucode it answers UnknownModifierCode and changes nothing. -/
def Obligations.BuildUPacksTheModifier : Prop :=
  (∀ a b c : Byte, decode (wordABC c b a 0x22) = .ok (.buildU a b))
    ∧ ∀ (s : State) (a b : Byte),
      (6 < a.toNat → exec (.buildU a b) s = .next (s.answerError .unknownModifierCode))
        ∧ (a.toNat ≤ 6 → ∃ (m1 : BitVec 2) (m2 : BitVec 3) (x : Byte), uPairs[a.toNat]? = some (m1, m2)
          ∧ exec (.buildU a b) s = .next (State.answerOk { s with fr := { s.fr with control := x } } (zext32 x))
          ∧ x.extractLsb' 0 2 = 3 ∧ x.extractLsb' 2 2 = m1 ∧ x.extractLsb' 4 1 = b.extractLsb' 0 1 ∧ x.extractLsb' 5 3 = m2)

/-- R137: CTRL_PARSE classifies every byte by its low bits, answers its fields, and changes no state; the ucode is that of the
(M1, M2) pair, 0xFF for an I- or S-frame and for a pair outside the table. -/
def Obligations.CtrlParseUnpacksEveryByte : Prop :=
  (∀ a b c : Byte, decode (wordABC c b a 0x23) = .ok (.ctrlParse a))
    ∧ ∀ (s : State) (x : Byte),
      (x.extractLsb' 0 1 = 0 →
          ParsesTo s x 0 ((x.extractLsb' 4 1).setWidth 4) ((x.extractLsb' 1 3).setWidth 8) ((x.extractLsb' 5 3).setWidth 8) 0xFF)
        ∧ (x.extractLsb' 0 2 = 1 →
          ParsesTo s x 1 ((x.extractLsb' 4 1).setWidth 4) ((x.extractLsb' 2 2).setWidth 8) ((x.extractLsb' 5 3).setWidth 8) 0xFF)
        ∧ (x.extractLsb' 0 2 = 3 → ∃ uc : Byte,
          ParsesTo s x 2 ((x.extractLsb' 4 1).setWidth 4) ((x.extractLsb' 2 2).setWidth 8) ((x.extractLsb' 5 3).setWidth 8) uc
            ∧ (∀ k : Nat, uPairs[k]? = some (x.extractLsb' 2 2, x.extractLsb' 5 3) → uc = BitVec.ofNat 8 k)
            ∧ ((x.extractLsb' 2 2, x.extractLsb' 5 3) ∉ uPairs → uc = 0xFF))

/-- R132, R134, R136: what BUILD_I writes parses as an S-frame when ns is even and as a U-frame when it is odd, never as an
I-frame; what BUILD_S writes parses as an S-frame with the truncated scode, pf and nr; what BUILD_U writes parses as a U-frame
with the same ucode. -/
def Obligations.BuiltControlBytesParse : Prop :=
  ∀ (s : State) (a b c : Byte),
    (∃ t : State, exec (.buildI a b c) s = .next t ∧ t.fr.control.extractLsb' 0 1 = 1
        ∧ (a.extractLsb' 0 1 = 0 → ∃ pf f1 f2 uc, ParsesTo t t.fr.control 1 pf f1 f2 uc)
        ∧ (a.extractLsb' 0 1 = 1 → ∃ pf f1 f2 uc, ParsesTo t t.fr.control 2 pf f1 f2 uc))
      ∧ (∃ t : State, exec (.buildS a b c) s = .next t ∧ t.fr.control.extractLsb' 0 2 = 1
        ∧ ParsesTo t t.fr.control 1 ((b.extractLsb' 0 1).setWidth 4) ((a.extractLsb' 0 2).setWidth 8) ((c.extractLsb' 0 3).setWidth 8) 0xFF)
      ∧ (a.toNat ≤ 6 → ∃ t : State, exec (.buildU a b) s = .next t ∧ t.fr.control.extractLsb' 0 2 = 3
        ∧ ∃ f1 f2, ParsesTo t t.fr.control 2 ((b.extractLsb' 0 1).setWidth 4) f1 f2 a)

/-! ## Checksum -/

/-- R156: CRC_BUF refuses a count above BUF_SIZE; otherwise it answers crc16 of the first bytes of BUF as they stand and changes
neither FR nor BUF (the CRC register it used is left unspecified, log 7); a count of 0 gives 0. -/
def Obligations.CrcBufHashesTheBuffer : Prop :=
  (∀ (n : Half) (c : Byte), decode (wordNC c n 0x30) = .ok (.crcBuf n))
    ∧ ∀ (s : State) (n : Half),
      (s.params.bufSize < n.toNat → exec (.crcBuf n) s = .next (s.answerError .invalidArgument))
        ∧ (n.toNat ≤ s.params.bufSize → ∃ (crc : Half) (draws : Nat) (v : Half),
          exec (.crcBuf n) s = .next (State.answerOk { s with crc := crc, draws := draws } (zext32 v))
            ∧ v = crc16 (s.buf.readList 0 n.toNat)
            ∧ (n = 0 → v = 0))

/-- R157: the reflected form of the generator gives the same value for every input. -/
def Obligations.ReflectedCrcAgrees : Prop := ∀ xs : List Byte, crc16Reflected xs = crc16 xs

/-! ## ENCODE -/

/-- R176: the encoded frame has K = 6 + info_len + E bytes, where E counts the escaped ones; K is at least 6 and at most
2*info_len + 10, which it reaches when every stuffed byte is escaped. -/
def Obligations.EncodedLengthIsK : Prop :=
  ∀ s : State, s.Inv →
    (wireFrame s.params.fcsScope s.fr).length
        = 6 + s.fr.infoLen.toNat
          + (stuffedContent s.params.fcsScope s.fr).countP (fun v => decide (v = 0x7E ∨ v = 0x7D))
      ∧ (wireFrame s.params.fcsScope s.fr).length = s.encodedLength
      ∧ 6 ≤ s.encodedLength ∧ s.encodedLength ≤ 2 * s.fr.infoLen.toNat + 10
      ∧ ((∀ v ∈ stuffedContent s.params.fcsScope s.fr, ¬ Unescaped v) → s.encodedLength = 2 * s.fr.infoLen.toNat + 10)

/-- R177: for every capacity up to BUF_SIZE, ENCODE completes with OK and value K exactly when the capacity is at least K, and
with BufferTooSmall exactly when it is below. -/
def Obligations.EncodeSucceedsExactlyFromK : Prop :=
  ∀ (s : State) (n : Half), s.Inv → n.toNat ≤ s.params.bufSize →
    (s.encodedLength ≤ n.toNat → ∃ t : State, exec (.encode n) s = .next t
        ∧ t.response = some { status := .ok, value := BitVec.ofNat 32 s.encodedLength })
      ∧ (n.toNat < s.encodedLength → ∃ t : State, exec (.encode n) s = .next t
        ∧ t.response = some { status := .bufferTooSmall, value := 0 })

/-- R178, R87: after a successful ENCODE, BUF[0..K) holds the encoded frame, the rest of BUF and FR are unchanged, and the value
is K. That of the other state only the CRC register, the encoder's working state and the draw counter change, the decoder's
working state being kept, is the model's (log 3, log 7). -/
def Obligations.EncodeWritesTheWireFrame : Prop :=
  ∀ (s : State) (n : Half), s.Inv → n.toNat ≤ s.params.bufSize → s.encodedLength ≤ n.toNat →
    ∃ (m : Memory) (crc : Half) (enc : Encoder) (draws : Nat),
      exec (.encode n) s = .next (State.answerOk { s with buf := m, crc := crc, enc := enc, draws := draws }
          (BitVec.ofNat 32 s.encodedLength))
        ∧ m.readList 0 s.encodedLength
          = 0x7E :: ((stuffedContent s.params.fcsScope s.fr).flatMap stuffBytes ++ [0x7E])
        ∧ ∀ i, s.encodedLength ≤ i → m.read i = s.buf.read i

/-- R179: after BufferTooSmall every byte of BUF[0..CAP) is a value drawn freely, and the rest of BUF and FR are unchanged. That
each byte takes a draw of its own that no earlier value came from, in rising order of the index, is the model's (log 3, log 5),
and so is it that of the other state only the CRC register, the encoder's working state and the draw counter change, the
decoder's working state being kept (log 3, log 7). -/
def Obligations.EncodeFailureDrawsTheCapacity : Prop :=
  ∀ (s : State) (n : Half), s.Inv → n.toNat ≤ s.params.bufSize → n.toNat < s.encodedLength →
    ∃ (m : Memory) (crc : Half) (enc : Encoder) (draws base : Nat),
      exec (.encode n) s = .next (State.answerError { s with buf := m, crc := crc, enc := enc, draws := draws }
          .bufferTooSmall)
        ∧ s.draws ≤ base ∧ base + n.toNat ≤ draws
        ∧ (∀ i, i < n.toNat → m.read i = drawByte (base + i))
        ∧ ∀ i, n.toNat ≤ i → m.read i = s.buf.read i

/-- R173: whatever its outcome, ENCODE never writes at or above index CAP, nor outside BUF. -/
def Obligations.EncodeNeverWritesAtOrAboveCap : Prop :=
  ∀ (s t : State) (n : Half), exec (.encode n) s = .next t →
    (∀ i, n.toNat ≤ i → t.buf.read i = s.buf.read i)
      ∧ ∀ i, s.params.bufSize ≤ i → t.buf.read i = s.buf.read i

/-- R89: in the encoded frame 0x7E appears at the first and last positions only. -/
def Obligations.EncodedFrameHasNoInnerFlag : Prop :=
  ∀ (s : State) (n : Half), s.Inv → n.toNat ≤ s.params.bufSize → s.encodedLength ≤ n.toNat →
    ∃ t : State, exec (.encode n) s = .next t ∧ t.buf.read 0 = 0x7E ∧ t.buf.read (s.encodedLength - 1) = 0x7E
      ∧ ∀ i, 0 < i → i < s.encodedLength - 1 → t.buf.read i ≠ 0x7E

/-- R22, R175: ENCODE's response and the bytes it writes depend on the parameters, FR.address, FR.control, FR.info_len and
FR.info[0..info_len) alone: not on what BUF held, nor on the info bytes beyond info_len. -/
def Obligations.EncodeDependsOnTheFrameAlone : Prop :=
  ∀ (s s' : State) (n : Half), s.params = s'.params → s.fr.address = s'.fr.address → s.fr.control = s'.fr.control →
    s.fr.infoLen = s'.fr.infoLen → s.fr.infoPrefix = s'.fr.infoPrefix →
    ∃ t t' : State, exec (.encode n) s = .next t ∧ exec (.encode n) s' = .next t' ∧ t.response = t'.response
      ∧ ∀ v : Word, t.response = some { status := .ok, value := v } → ∀ i, i < v.toNat → t.buf.read i = t'.buf.read i

/-- R181: the per-byte encoder ends within info_len + 7 steps in the very state ENCODE ends in. That the two agree in the drawn
values and the draw counter too is the model's (log 3), which makes the draws when the run ends (log 12). -/
def Obligations.PerByteEncodeIsEncode : Prop :=
  ∀ (s : State) (n : Half), s.Inv → ∃ t : State, s.encodeByBytes n = some t ∧ exec (.encode n) s = .next t

/-! ## DECODE -/

/-- R190, R202: when BUF[0..LEN) is a raw flag, a body that unstuffs to an address, a control byte and at most MAX_INFO info
bytes, an unescaped FCS that matches, and a raw flag, DECODE completes with OK and value info_len, FR holds that frame with the
rest of FR.info zero (R193), and BUF is unchanged. Raw 0x7E bytes and non-canonical escapes in the body are data (R90). That
the encoder's working state is kept, while the CRC register, the decoder's and the draw counter change, is the model's (log 3,
log 7). -/
def Obligations.DecodeCompletesOnFrames : Prop :=
  ∀ (s : State) (n : Half) (body info : List Byte) (address control hi lo : Byte),
    s.Inv → n.toNat ≤ s.params.bufSize →
    s.buf.readList 0 n.toNat = 0x7E :: (body ++ [hi, lo, 0x7E]) → hi ≠ 0x7D → lo ≠ 0x7D →
    unstuffAll body = some (address :: control :: info) → info.length ≤ s.params.maxInfo →
    ((match s.params.fcsScope with
      | .logical => crc16 (address :: control :: info)
      | .written => crc16 body) : Half) = joinBytes hi lo →
    ∃ (crc : Half) (dec : Decoder) (draws : Nat) (f : Frame),
      exec (.decode n) s = .next (State.answerOk { s with fr := f, crc := crc, dec := dec, draws := draws }
          (BitVec.ofNat 32 info.length))
        ∧ f.address = address ∧ f.control = control ∧ f.infoLen.toNat = info.length
        ∧ f.info = info ++ List.replicate (s.params.maxInfo - info.length) 0

/-- R190, R202: DECODE completes with OK only on such an input, which then is at least 6 bytes long and ends in its closing
flag; the value is info_len, FR holds the decoded frame with the rest of FR.info zero, and BUF is unchanged. -/
def Obligations.DecodeAcceptsOnlyFrames : Prop :=
  ∀ (s t : State) (n : Half), s.Inv → exec (.decode n) s = .next t → t.status? = some .ok →
    6 ≤ n.toNat ∧ n.toNat ≤ s.params.bufSize ∧ t.buf = s.buf
      ∧ t.response = some { status := .ok, value := zext32 t.fr.infoLen }
      ∧ ∃ (body info : List Byte) (hi lo : Byte),
        s.buf.readList 0 n.toNat = 0x7E :: (body ++ [hi, lo, 0x7E]) ∧ hi ≠ 0x7D ∧ lo ≠ 0x7D
          ∧ unstuffAll body = some (t.fr.address :: t.fr.control :: info)
          ∧ info.length = t.fr.infoLen.toNat ∧ info.length ≤ s.params.maxInfo
          ∧ t.fr.info = info ++ List.replicate (s.params.maxInfo - info.length) 0
          ∧ ((match s.params.fcsScope with
            | .logical => crc16 (t.fr.address :: t.fr.control :: info)
            | .written => crc16 body) : Half) = joinBytes hi lo

/-- R203: on an error other than InvalidArgument every field of FR is drawn freely, with FR.info_len drawn from 0..MAX_INFO, BUF
is unchanged and the value is 0. The numbers of the draws and the remainder that narrows the length's are the model's (log 3,
log 6), and so is it that of the other state only the CRC register, the decoder's working state and the draw counter change
(log 7). -/
def Obligations.DecodeFailureDrawsTheFrame : Prop :=
  ∀ (s : State) (n : Half) (t : State), exec (.decode n) s = .next t → n.toNat ≤ s.params.bufSize →
    t.status? ≠ some .ok →
    ∃ (e : Status) (k : Nat) (crc : Half) (dec : Decoder) (draws : Nat),
      (e = .malformedStream ∨ e = .checksumMismatch ∨ e = .incompleteFrame)
        ∧ s.draws ≤ k ∧ k + 3 + s.params.maxInfo ≤ draws
        ∧ t = State.answerError
            { s with
              fr :=
                { address := drawByte k
                  control := drawByte (k + 1)
                  infoLen := BitVec.ofNat 8 (drawUpTo (k + 2) s.params.maxInfo)
                  info := drawBytes (k + 3) s.params.maxInfo }
              crc := crc, dec := dec, draws := draws } e
        ∧ t.fr.infoLen.toNat ≤ s.params.maxInfo

/-- R191, R192: DECODE of no byte is IncompleteFrame; of an input whose first byte is not 0x7E, MalformedStream. -/
def Obligations.DecodeChecksTheStartFlag : Prop :=
  ∀ (s : State) (n : Half),
    (n = 0 → ∃ t : State, exec (.decode n) s = .next t
        ∧ t.response = some { status := .incompleteFrame, value := 0 })
      ∧ (0 < n.toNat → n.toNat ≤ s.params.bufSize → s.buf.read 0 ≠ 0x7E → ∃ t : State, exec (.decode n) s = .next t
        ∧ t.response = some { status := .malformedStream, value := 0 })

/-- R194, R195: in the Address and in the Control state, an exhausted input is IncompleteFrame and an escape as the last byte
is MalformedStream (90_conflicts.md C8). -/
def Obligations.DecodeAddressAndControlErrors : Prop :=
  ∀ (s : State) (n : Half) (unit : List Byte), n.toNat ≤ s.params.bufSize →
    (unit = [] ∨ ∃ v, unstuff unit = .ok (v, unit.length)) →
    (s.buf.readList 0 n.toNat = 0x7E :: unit → ∃ t : State, exec (.decode n) s = .next t
        ∧ t.response = some { status := .incompleteFrame, value := 0 })
      ∧ (s.buf.readList 0 n.toNat = 0x7E :: (unit ++ [0x7D]) → ∃ t : State, exec (.decode n) s = .next t
        ∧ t.response = some { status := .malformedStream, value := 0 })

/-- R199, R191: in the FCS state, entered with the input `rest` left, an input exhausted before the high or the low byte is
IncompleteFrame, and an escape as the last byte is MalformedStream. -/
def Obligations.DecodeFcsUnitErrors : Prop :=
  ∀ (s : State) (n : Half) (body rest info : List Byte) (address control : Byte), n.toNat ≤ s.params.bufSize →
    s.buf.readList 0 n.toNat = 0x7E :: (body ++ rest) →
    unstuffAll body = some (address :: control :: info) → info.length ≤ s.params.maxInfo → EntersFcs body info rest →
    ((rest = [] ∨ ∃ v, unstuff rest = .ok (v, rest.length)) → ∃ t : State, exec (.decode n) s = .next t
        ∧ t.response = some { status := .incompleteFrame, value := 0 })
      ∧ ((∃ unit, rest = unit ++ [0x7D] ∧ (unit = [] ∨ ∃ v, unstuff unit = .ok (v, unit.length))) →
        ∃ t : State, exec (.decode n) s = .next t ∧ t.response = some { status := .malformedStream, value := 0 })

/-- R197: when the Info loop would append a byte while FR.info_len is MAX_INFO, which it would when MAX_INFO info bytes have been
read and more than 3 bytes remain (R196), DECODE completes with MalformedStream. -/
def Obligations.DecodeInfoOverflowIsMalformed : Prop :=
  ∀ (s : State) (n : Half) (body rest info : List Byte) (address control : Byte), n.toNat ≤ s.params.bufSize →
    s.buf.readList 0 n.toNat = 0x7E :: (body ++ rest) →
    unstuffAll body = some (address :: control :: info) → info.length = s.params.maxInfo → 3 < rest.length →
    ∃ t : State, exec (.decode n) s = .next t ∧ t.response = some { status := .malformedStream, value := 0 }

/-- R200, R201, R191, R258: in the FCS state, entered with a unit for each FCS byte and then `tail` left, the checksum is compared
before the stop flag is looked at: a mismatch is ChecksumMismatch whatever the tail, and a match is IncompleteFrame when nothing
is left and MalformedStream when another byte than 0x7E is. -/
def Obligations.DecodeChecksTheSumBeforeTheStopFlag : Prop :=
  ∀ (s : State) (n : Half) (body info hiUnit loUnit tail : List Byte) (address control hi lo : Byte),
    n.toNat ≤ s.params.bufSize →
    s.buf.readList 0 n.toNat = 0x7E :: (body ++ (hiUnit ++ (loUnit ++ tail))) →
    unstuffAll body = some (address :: control :: info) → info.length ≤ s.params.maxInfo →
    EntersFcs body info (hiUnit ++ (loUnit ++ tail)) →
    unstuff hiUnit = .ok (hi, hiUnit.length) → unstuff loUnit = .ok (lo, loUnit.length) →
    (decodeFcs s.params.fcsScope address control info body ≠ joinBytes hi lo → ∃ t : State, exec (.decode n) s = .next t
        ∧ t.response = some { status := .checksumMismatch, value := 0 })
      ∧ (decodeFcs s.params.fcsScope address control info body = joinBytes hi lo →
        (tail = [] → ∃ t : State, exec (.decode n) s = .next t
            ∧ t.response = some { status := .incompleteFrame, value := 0 })
          ∧ ∀ last, tail = [last] → last ≠ 0x7E → ∃ t : State, exec (.decode n) s = .next t
            ∧ t.response = some { status := .malformedStream, value := 0 })

/-- R50, R292: DECODE's response, and the frame it leaves when it succeeds, depend on the parameters and BUF[0..LEN) alone. -/
def Obligations.DecodeDependsOnItsInputAlone : Prop :=
  ∀ (s s' : State) (n : Half), s.params = s'.params → (∀ i, i < n.toNat → s.buf.read i = s'.buf.read i) →
    ∃ t t' : State, exec (.decode n) s = .next t ∧ exec (.decode n) s' = .next t' ∧ t.response = t'.response
      ∧ (t.status? = some .ok → t.fr = t'.fr)

/-- R210: the per-byte decoder ends within LEN + 1 steps in the very state DECODE ends in. That the two agree in the drawn values
and the draw counter too is the model's (log 3), which makes the draws when the run ends (log 12), the bit fcsHiRead among them
(log 18). -/
def Obligations.PerByteDecodeIsDecode : Prop :=
  ∀ (s : State) (n : Half), s.Inv → ∃ t : State, s.decodeByBytes n = some t ∧ exec (.decode n) s = .next t

/-! ## ENCODE and DECODE together -/

/-- R207: for every frame whose FCS bytes are not escaped, DECODE of what ENCODE wrote, with LEN = K, completes with OK and
value info_len and gives the frame back. -/
def Obligations.DecodeGivesBackTheEncodedFrame : Prop :=
  ∀ (s : State) (cap len : Half), s.Inv → cap.toNat ≤ s.params.bufSize → s.encodedLength ≤ cap.toNat →
    len.toNat = s.encodedLength → Unescaped s.fcsBytes.1 → Unescaped s.fcsBytes.2 →
    ∃ t u : State, exec (.encode cap) s = .next t ∧ exec (.decode len) t = .next u
      ∧ u.response = some { status := .ok, value := zext32 s.fr.infoLen }
      ∧ u.fr.address = s.fr.address ∧ u.fr.control = s.fr.control ∧ u.fr.infoLen = s.fr.infoLen
      ∧ u.fr.infoPrefix = s.fr.infoPrefix

/-- R206: for every frame with an escaped FCS byte, DECODE of what ENCODE wrote, with LEN = K, never completes with OK: it is
MalformedStream when one more info byte would pass MAX_INFO; otherwise the FCS high byte is taken as info and the FCS low byte
and the closing flag as the FCS, and the result is ChecksumMismatch when that does not match, IncompleteFrame when it does. -/
def Obligations.DecodeRejectsAnEscapedFcs : Prop :=
  ∀ (s : State) (cap len : Half), s.Inv → cap.toNat ≤ s.params.bufSize → s.encodedLength ≤ cap.toNat →
    len.toNat = s.encodedLength → (¬ Unescaped s.fcsBytes.1 ∨ ¬ Unescaped s.fcsBytes.2) →
    ∃ t u : State, exec (.encode cap) s = .next t ∧ exec (.decode len) t = .next u
      ∧ u.response = some
          { status :=
              if s.fr.infoLen.toNat = s.params.maxInfo then .malformedStream
              else if joinBytes s.fcsBytes.2 0x7E
                  = crc16 ((s.fr.address :: s.fr.control :: (s.fr.infoPrefix ++ [s.fcsBytes.1])).flatMap
                      (fcsUnit s.params.fcsScope))
                then .incompleteFrame
              else .checksumMismatch
            value := 0 }

/-- R208: DECODE of a strict prefix of what ENCODE wrote always fails, with IncompleteFrame, MalformedStream or
ChecksumMismatch. -/
def Obligations.DecodeRejectsEveryStrictPrefix : Prop :=
  ∀ (s : State) (cap len : Half), s.Inv → cap.toNat ≤ s.params.bufSize → s.encodedLength ≤ cap.toNat →
    len.toNat < s.encodedLength →
    ∃ (t u : State) (e : Status), exec (.encode cap) s = .next t ∧ exec (.decode len) t = .next u
      ∧ u.response = some { status := e, value := 0 }
      ∧ (e = .incompleteFrame ∨ e = .malformedStream ∨ e = .checksumMismatch)

/-! ## Invariants -/

/-- R21 and the shape of the state: every step keeps `State.Inv`, from every state that meets it. -/
def Obligations.StepKeepsTheStateInvariant : Prop :=
  ∀ s t : State, s.Inv → step s = .next t → t.Inv

/-- The state after reset meets `State.Inv`, for every legal choice of the parameters. -/
def Obligations.ResetMeetsTheStateInvariant : Prop :=
  State.reset.Inv ∧ ∀ p : Params, p.Valid → (State.resetWith p).Inv

/-- R21, R26: FR.info_len is at most MAX_INFO in every state the block reaches from reset, whatever the host does, and the
parameters are those the block was built with. -/
def Obligations.InfoLenNeverPassesMaxInfo : Prop :=
  ∀ (p : Params) (input : List HostEvent) (k : Nat) (t : State), p.Valid →
    core.run k { State.resetWith p with input := input } = .next t →
    t.fr.infoLen.toNat ≤ t.params.maxInfo ∧ t.params = p

/-! ## Whole-machine rules -/

/-- R23: which commands write which fields of FR; every other command leaves FR as it is. -/
def Obligations.OnlyNamedCommandsWriteTheFrame : Prop :=
  ∀ (i : Instr) (s t : State), exec i s = .next t →
    match i with
    | .wrAddr _ => t.fr = { s.fr with address := t.fr.address }
    | .wrCtrl _ | .buildI _ _ _ | .buildS _ _ _ => t.fr = { s.fr with control := t.fr.control }
    | .buildU _ _ =>
      t.fr = { s.fr with control := t.fr.control } ∧ (t.status? ≠ some .ok → t.fr = s.fr)
    | .wrLen _ => t.fr = { s.fr with infoLen := t.fr.infoLen }
    | .wrInfo _ _ => t.fr = { s.fr with info := t.fr.info }
    | .clrFrame | .decode _ => True
    | .nop | .rdAddr | .rdCtrl | .rdLen | .rdInfo _ | .wrBuf _ _ | .rdBuf _ | .stuff _ _ | .unstuff _ _ _
    | .ctrlParse _ | .crcBuf _ | .encode _ => t.fr = s.fr

/-- R50, R223, R26: BUF is written by WR_BUF, at its index alone, and by ENCODE, below its capacity alone; the commands of
45_host_access.md do not write the working state; no command touches the parameters. That the other commands keep the working
state, that ENCODE keeps the decoder's, DECODE the encoder's and CRC_BUF both, is the model's (log 7), and so are the host's
later events (log 1). -/
def Obligations.OnlyNamedCommandsWriteTheRest : Prop :=
  ∀ (i : Instr) (s t : State), exec i s = .next t →
    t.params = s.params ∧ t.input = s.input
      ∧ match i with
        | .wrBuf n _ =>
          (∀ a, a ≠ n.toNat → t.buf.read a = s.buf.read a) ∧ t.crc = s.crc ∧ t.enc = s.enc ∧ t.dec = s.dec
        | .encode n => (∀ a, n.toNat ≤ a → t.buf.read a = s.buf.read a) ∧ t.dec = s.dec
        | .decode _ => t.buf = s.buf ∧ t.enc = s.enc
        | .crcBuf _ => t.buf = s.buf ∧ t.enc = s.enc ∧ t.dec = s.dec
        | .nop | .wrAddr _ | .wrCtrl _ | .wrLen _ | .wrInfo _ _ | .rdAddr | .rdCtrl | .rdLen | .rdInfo _ | .clrFrame
        | .rdBuf _ | .stuff _ _ | .unstuff _ _ _ | .buildI _ _ _ | .buildS _ _ _ | .buildU _ _ | .ctrlParse _ =>
          t.buf = s.buf ∧ t.crc = s.crc ∧ t.enc = s.enc ∧ t.dec = s.dec

/-- R25: no command reads an earlier response, which the model keeps in State.response (log 2). That the two runs also draw the
same values and end with the same draw counter is a fact about the model alone (log 3). -/
def Obligations.NoCommandReadsTheResponse : Prop :=
  ∀ (i : Instr) (s : State) (r : Option Response), exec i { s with response := r } = exec i s

/-- R28, R29, R30: no command reads the working state the last command left. That the two runs also draw the same values, where
FR or BUF is drawn, and end with the same draw counter is a fact about the model alone (log 3). -/
def Obligations.NoCommandReadsTheWorkingState : Prop :=
  ∀ (i : Instr) (s : State) (crc : Half) (enc : Encoder) (dec : Decoder),
    ∃ t t' : State, exec i s = .next t ∧ exec i { s with crc := crc, enc := enc, dec := dec } = .next t'
      ∧ t.fr = t'.fr ∧ t.buf = t'.buf ∧ t.response = t'.response ∧ t.params = t'.params ∧ t.input = t'.input
      ∧ t.draws = t'.draws

/-- R76, R77, R293: every command completes, in every state, with one response whose value is 0 unless its status is OK; the
statuses have the codes 0 to 6 of R77's table, so code 7 is never produced. -/
def Obligations.EveryCommandCompletesWithAResponse : Prop :=
  (∀ (i : Instr) (s : State), ∃ (t : State) (r : Response), exec i s = .next t ∧ t.response = some r
    ∧ (r.status ≠ .ok → r.value = 0) ∧ r.status.code ≠ 7)
  ∧ Status.code .ok = 0 ∧ Status.code .invalidArgument = 1 ∧ Status.code .bufferTooSmall = 2
  ∧ Status.code .malformedStream = 3 ∧ Status.code .checksumMismatch = 4 ∧ Status.code .incompleteFrame = 5
  ∧ Status.code .unknownModifierCode = 6

/-- R251: InvalidArgument is raised by exactly the causes listed, an undefined opcode among them, and then no state changes. -/
def Obligations.InvalidArgumentHasExactlyTheseCauses : Prop :=
  (∀ (i : Instr) (s t : State), exec i s = .next t →
    (t.status? = some .invalidArgument ↔
      match i with
      | .encode n | .decode n | .crcBuf n => s.params.bufSize < n.toNat
      | .wrBuf n _ | .rdBuf n => s.params.bufSize ≤ n.toNat
      | .wrInfo a _ | .rdInfo a => s.params.maxInfo ≤ a.toNat
      | .wrLen a => s.params.maxInfo < a.toNat
      | .nop | .wrAddr _ | .wrCtrl _ | .rdAddr | .rdCtrl | .rdLen | .clrFrame | .stuff _ _ | .unstuff _ _ _
      | .buildI _ _ _ | .buildS _ _ _ | .buildU _ _ | .ctrlParse _ => False)
    ∧ (t.status? = some .invalidArgument → t = s.answerError .invalidArgument))
  ∧ ∀ (s : State) (w : Word) (rest : List HostEvent) (e : DecodeReject), s.input = .command w :: rest →
    decode w = .error e → step s = .next (State.answerError { s with input := rest } .invalidArgument)

/-- R252: BufferTooSmall is raised by exactly ENCODE with CAP < K and STUFF with less room than the stuffed length. -/
def Obligations.BufferTooSmallHasExactlyTheseCauses : Prop :=
  ∀ (i : Instr) (s t : State), s.Inv → exec i s = .next t →
    (t.status? = some .bufferTooSmall ↔
      match i with
      | .encode n => n.toNat ≤ s.params.bufSize ∧ n.toNat < s.encodedLength
      | .stuff a b => b.toNat < (if a = 0x7E ∨ a = 0x7D then 2 else 1)
      | .nop | .wrAddr _ | .wrCtrl _ | .wrLen _ | .wrInfo _ _ | .rdAddr | .rdCtrl | .rdLen | .rdInfo _ | .clrFrame
      | .wrBuf _ _ | .rdBuf _ | .unstuff _ _ _ | .buildI _ _ _ | .buildS _ _ _ | .buildU _ _ | .ctrlParse _
      | .crcBuf _ | .decode _ => False)

/-- R253 to R256: MalformedStream and IncompleteFrame come from DECODE and UNSTUFF only, ChecksumMismatch from DECODE only, and
UnknownModifierCode from BUILD_U with ucode > 6, always. -/
def Obligations.OtherErrorsComeFromTheirCommands : Prop :=
  ∀ (i : Instr) (s t : State), exec i s = .next t →
    ((t.status? = some .malformedStream ∨ t.status? = some .incompleteFrame) →
        (∃ n, i = .decode n) ∨ ∃ a b c, i = .unstuff a b c)
      ∧ (t.status? = some .checksumMismatch → ∃ n, i = .decode n)
      ∧ (t.status? = some .unknownModifierCode ↔ ∃ a b, i = .buildU a b ∧ 6 < a.toNat)

/-- R26: no event changes the parameters. -/
def Obligations.ParametersNeverChange : Prop := ∀ s t : State, step s = .next t → t.params = s.params

/-! ## Encodings -/

/-- R70 to R73: decoding the word of a command gives the command back, whatever its operands. -/
def Obligations.DecodeInvertsEncode : Prop := ∀ i : Instr, decode (encode i) = .ok i

/-- R74: two words that differ only in bits the command's format does not read are the same command; and the word of a command
agrees with every word that decodes to it in the bits the format reads. -/
def Obligations.UnreadBitsAreIgnored : Prop :=
  ∀ (w : Word) (i : Instr), decode w = .ok i →
    (∀ w' : Word, w' &&& readMask i = w &&& readMask i → decode w' = .ok i)
      ∧ encode i = w &&& readMask i

/-- R75: a word is an undefined command exactly when its op is not in the opcode map; the block then answers InvalidArgument
with value 0 and changes no state. -/
def Obligations.UndefinedOpcodesAnswerInvalidArgument : Prop :=
  (∀ w : Word, (∃ e, decode w = .error e) ↔
    opField w ∉ ([0x00, 0x01, 0x02, 0x03, 0x04, 0x05, 0x06, 0x07, 0x08, 0x09, 0x0A, 0x0B, 0x10, 0x11, 0x20, 0x21, 0x22,
      0x23, 0x30, 0x40, 0x41] : List Byte))
  ∧ ∀ (s : State) (w : Word) (rest : List HostEvent) (e : DecodeReject), s.input = .command w :: rest →
    decode w = .error e → step s = .next (State.answerError { s with input := rest } .invalidArgument)

/-- R72: some words written out from the table decode to their commands. -/
def Obligations.WrittenOutWordsDecode : Prop :=
  decode 0x00000000 = .ok .nop ∧ decode 0x1100110A = .ok (.wrBuf 17 0x11) ∧ decode 0x00027E10 = .ok (.stuff 0x7E 2)
    ∧ decode 0x02010020 = .ok (.buildI 0 1 2) ∧ decode 0x00000930 = .ok (.crcBuf 9) ∧ decode 0x00000A40 = .ok (.encode 10)
    ∧ decode 0x00000F41 = .ok (.decode 15)

/-! ## Steps and host events -/

/-- R58: when the host's next event is a word that decodes to a command, a step is that command run whole, the event taken; in
particular a word the host issues next runs next. -/
def Obligations.StepRunsTheDecodedCommand : Prop :=
  (∀ (s : State) (w : Word) (rest : List HostEvent) (i : Instr), s.input = .command w :: rest → decode w = .ok i →
    step s = exec i { s with input := rest })
  ∧ ∀ (s : State) (w : Word) (i : Instr), decode w = .ok i → step (s.withFetchWord 32 w.toNat) = exec i s

/-- R27, R280: after reset FR.address, FR.control, FR.info_len and every FR.info[i] are 0, for the state after reset and for a
reset applied between commands, which keeps the parameters. -/
def Obligations.ResetZeroesTheFrameRegister : Prop :=
  (∀ p : Params, (State.resetWith p).fr
      = { address := 0, control := 0, infoLen := 0, info := List.replicate p.maxInfo 0 })
    ∧ ∀ (s : State) (rest : List HostEvent), s.input = .reset :: rest → ∃ t : State, step s = .next t
      ∧ t.fr = { address := 0, control := 0, infoLen := 0, info := List.replicate s.params.maxInfo 0 }
      ∧ t.params = s.params

/-- R281: after reset every byte of BUF is drawn freely, each by a draw of its own. That the draws are numbered one after
another, none used before, is the model's (log 4); so is it that a reset clears the response and keeps the host's later
events (log 11). -/
def Obligations.ResetDrawsEveryByteOfBuf : Prop :=
  (∀ (p : Params), ∃ base, base + p.bufSize ≤ (State.resetWith p).draws
      ∧ ∀ i, i < p.bufSize → (State.resetWith p).buf.read i = drawByte (base + i))
    ∧ ∀ (s : State) (rest : List HostEvent), s.input = .reset :: rest → ∃ (t : State) (base : Nat), step s = .next t
      ∧ t.input = rest ∧ t.response = none ∧ s.draws ≤ base ∧ base + s.params.bufSize ≤ t.draws
      ∧ ∀ i, i < s.params.bufSize → t.buf.read i = drawByte (base + i)

/-- R269, R282: with no event from the host the block keeps its state. That such a step answers the same state is the model's
(log 10). -/
def Obligations.IdleBlockKeepsItsState : Prop := ∀ s : State, s.input = [] → step s = .next s
end

