-- ==== Sys2Proof/Laws/Bits.lean ====
section
/-! SUPPORT. Joining and splitting the two bytes of a 16-bit value (rules R53 and R174: high byte first). -/

namespace Sys2Proof.Machine

theorem joinBytes_getLsbD (hi lo : Byte) (i : Nat) :
    (joinBytes hi lo).getLsbD i = if i < 8 then lo.getLsbD i else hi.getLsbD (i - 8) := by
  rcases Nat.lt_or_ge i 8 with h | h
  · simp [joinBytes, zext16, h, show i < 16 by omega]
  · rcases Nat.lt_or_ge i 16 with h' | h'
    · simp [joinBytes, zext16, Nat.not_lt.mpr h, h', BitVec.getLsbD_of_ge lo i h]
    · simp [joinBytes, zext16, Nat.not_lt.mpr h, Nat.not_lt.mpr h', show 8 ≤ i - 8 by omega]

/-- The two bytes of an FCS put together again (R174, R199). -/
@[simp] theorem joinBytes_fcs (f : Half) : joinBytes (fcsHigh f) (fcsLow f) = f := by
  apply BitVec.eq_of_getLsbD_eq
  intro i hi
  rw [joinBytes_getLsbD]
  simp only [fcsHigh, fcsLow, BitVec.getLsbD_extractLsb']
  split
  · simp [*]
  · simp [show i - 8 < 8 by omega, show 8 + (i - 8) = i by omega]

end Sys2Proof.Machine
end

