-- ==== Sys2Proof/Laws/Checksum.lean ====
section
/-! SUPPORT. The CRC register can be read back from its FCS, and what follows for rule R206 of 44_decoder.md: a frame whose FCS
has an escaped byte never matches by chance. -/

namespace Sys2Proof.Machine

/-- `rev16` undoes itself (R12). -/
@[simp] theorem rev16_rev16 (v : Half) : rev16 (rev16 v) = v := by
  apply BitVec.eq_of_getLsbD_eq
  intro i hi
  simp only [rev16, BitVec.getLsbD_reverse, BitVec.getMsbD_reverse]

/-- The register a value of `CrcFinal` came from (R153). -/
theorem crcFinal_register (r : Half) : rev16 (crcFinal r ^^^ 0xFFFF) = r := by
  rw [crcFinal, BitVec.xor_assoc, BitVec.xor_self, BitVec.xor_zero, rev16_rev16]

/-- The CRC of a longer sequence goes on from the shorter one's FCS (R154). -/
theorem crc16_append (xs ys : List Byte) :
    crc16 (xs ++ ys) = crcFinal (ys.foldl crcUpdate (rev16 (crc16 xs ^^^ 0xFFFF))) := by
  rw [show rev16 (crc16 xs ^^^ 0xFFFF) = xs.foldl crcUpdate crcInit from crcFinal_register _]
  simp [crc16]

/-- The FCS over a sequence that ends in the high byte of its own prefix's FCS, given that FCS. -/
def fcsOverHigh (scope : FcsScope) (hi lo : Byte) : Half :=
  crcFinal ((fcsUnit scope hi).foldl crcUpdate (rev16 (joinBytes hi lo ^^^ 0xFFFF)))

/-- Whichever FCS byte equals 0x7E or 0x7D, that FCS is not the one the low byte and the closing flag make. -/
theorem fcsOverHigh_ne (scope : FcsScope) (v : Byte) :
    (joinBytes v 0x7E ≠ fcsOverHigh scope 0x7E v ∧ joinBytes v 0x7E ≠ fcsOverHigh scope 0x7D v)
      ∧ joinBytes 0x7E 0x7E ≠ fcsOverHigh scope v 0x7E ∧ joinBytes 0x7D 0x7E ≠ fcsOverHigh scope v 0x7D := by
  revert v
  cases scope <;> decide +kernel

/-- The match that R206 allows for "by chance" happens for no content, under either scope. -/
theorem escaped_fcs_never_matches (scope : FcsScope) (xs : List Byte)
    (h : ¬ Unescaped (fcsHigh (crc16 xs)) ∨ ¬ Unescaped (fcsLow (crc16 xs))) :
    joinBytes (fcsLow (crc16 xs)) 0x7E ≠ crc16 (xs ++ fcsUnit scope (fcsHigh (crc16 xs))) := by
  have key : crc16 (xs ++ fcsUnit scope (fcsHigh (crc16 xs)))
      = fcsOverHigh scope (fcsHigh (crc16 xs)) (fcsLow (crc16 xs)) := by
    rw [crc16_append, fcsOverHigh, joinBytes_fcs]
  rw [key]
  generalize fcsHigh (crc16 xs) = hi at h
  generalize fcsLow (crc16 xs) = lo at h
  simp only [Unescaped, Decidable.not_and_iff_not_or_not, ne_eq, Decidable.not_not] at h
  rcases h with (rfl | rfl) | (rfl | rfl)
  · exact (fcsOverHigh_ne scope lo).1.1
  · exact (fcsOverHigh_ne scope lo).1.2
  · exact (fcsOverHigh_ne scope hi).2.1
  · exact (fcsOverHigh_ne scope hi).2.2

end Sys2Proof.Machine
end

