-- ==== Sys2Proof/Laws/Memory.lean ====
section
/-! SUPPORT. The laws of BUF: a read gives what was last written there and a write leaves every other index alone (rules R51
and R57 of 20_memory.md), every write keeps the canonical form, and equal bytes in canonical form are equal data. -/

namespace Sys2Proof.Machine

theorem lookupCell_insertCell (cs : List Host.Cell) (i j : Nat) (v : Byte) :
    lookupCell (insertCell cs i v) j = if j = i then some v else lookupCell cs j := by
  induction cs with
  | nil => simp [insertCell, lookupCell]
  | cons c cs ih =>
    obtain ⟨k, u⟩ := c
    simp only [insertCell]
    split
    · simp [lookupCell]
    · split
      · subst_vars
        simp only [lookupCell]
        split <;> rfl
      · simp only [lookupCell, ih]
        split
        · split
          · omega
          · rfl
        · rfl

theorem cellsRise_insertCell {lo : Nat} {cs : List Host.Cell} {i : Nat} (v : Byte)
    (h : cellsRise lo cs = true) (hi : lo ≤ i) : cellsRise lo (insertCell cs i v) = true := by
  induction cs generalizing lo with
  | nil => simpa [insertCell, cellsRise] using hi
  | cons c cs ih =>
    obtain ⟨k, u⟩ := c
    simp only [cellsRise, Bool.and_eq_true, decide_eq_true_eq] at h
    simp only [insertCell]
    split
    · rename_i hik
      simp only [cellsRise, Bool.and_eq_true, decide_eq_true_eq]
      exact ⟨hi, hik, h.2⟩
    · split
      · rename_i hik
        subst hik
        simp only [cellsRise, Bool.and_eq_true, decide_eq_true_eq]
        exact ⟨hi, h.2⟩
      · simp only [cellsRise, Bool.and_eq_true, decide_eq_true_eq]
        exact ⟨h.1, ih h.2 (by omega)⟩

/-- An index below the first one allowed is not listed. -/
theorem lookupCell_below {lo : Nat} {cs : List Host.Cell} (h : cellsRise lo cs = true) {j : Nat} (hj : j < lo) :
    lookupCell cs j = none := by
  induction cs generalizing lo with
  | nil => rfl
  | cons c cs ih =>
    obtain ⟨k, u⟩ := c
    simp only [cellsRise, Bool.and_eq_true, decide_eq_true_eq] at h
    have hk : j ≠ k := by omega
    simp only [lookupCell, hk, if_false]
    exact ih h.2 (by omega)

/-- Cells in canonical form that list the same bytes are equal. -/
theorem cells_ext {lo₁ lo₂ : Nat} {cs ds : List Host.Cell} (hc : cellsRise lo₁ cs = true) (hd : cellsRise lo₂ ds = true)
    (h : ∀ j, lookupCell cs j = lookupCell ds j) : cs = ds := by
  induction cs generalizing lo₁ lo₂ ds with
  | nil =>
    cases ds with
    | nil => rfl
    | cons d ds =>
      obtain ⟨k, u⟩ := d
      simpa [lookupCell] using h k
  | cons c cs ih =>
    obtain ⟨k, u⟩ := c
    cases ds with
    | nil => simpa [lookupCell] using h k
    | cons d ds =>
      obtain ⟨k', u'⟩ := d
      simp only [cellsRise, Bool.and_eq_true, decide_eq_true_eq] at hc hd
      have hkk : k = k' := by
        rcases Nat.lt_trichotomy k k' with hlt | heq | hgt
        · have hk := h k
          have hne : k ≠ k' := by omega
          have hbelow := lookupCell_below hd.2 (j := k) (by omega)
          simp [lookupCell, hne, hbelow] at hk
        · exact heq
        · have hk := h k'
          have hne : k' ≠ k := by omega
          have hbelow := lookupCell_below hc.2 (j := k') (by omega)
          simp [lookupCell, hne, hbelow] at hk
      subst hkk
      have hu := h k
      simp only [lookupCell, if_true, Option.some.injEq] at hu
      subst hu
      have hrest : cs = ds := by
        refine ih hc.2 hd.2 fun j => ?_
        by_cases hj : j = k
        · subst hj
          rw [lookupCell_below hc.2 (by omega), lookupCell_below hd.2 (by omega)]
        · simpa [lookupCell, hj] using h j
      rw [hrest]

@[simp] theorem Memory.write_unwritten (m : Memory) (i : Nat) (v : Byte) : (m.write i v).unwritten = m.unwritten := rfl

@[simp] theorem Memory.read_write (m : Memory) (i j : Nat) (v : Byte) :
    (m.write i v).read j = if j = i then v else m.read j := by
  simp only [Memory.read, Memory.write, lookupCell_insertCell]
  split <;> simp

theorem Memory.wf_write {m : Memory} (h : m.wf = true) (i : Nat) (v : Byte) : (m.write i v).wf = true :=
  cellsRise_insertCell v h (Nat.zero_le i)

theorem insertCell_all {p : Host.Cell → Bool} {cs : List Host.Cell} {i : Nat} {v : Byte}
    (h : cs.all p = true) (hi : p (i, v) = true) : (insertCell cs i v).all p = true := by
  induction cs with
  | nil => simpa [insertCell] using hi
  | cons c cs ih =>
    obtain ⟨k, u⟩ := c
    simp only [List.all_cons, Bool.and_eq_true] at h
    simp only [insertCell]
    split
    · simp [h, hi]
    · split
      · simp [h, hi]
      · simp only [List.all_cons, Bool.and_eq_true]
        exact ⟨h.1, ih h.2⟩

theorem Memory.within_write {m : Memory} {size : Nat} (h : m.within size = true) {i : Nat} (hi : i < size) (v : Byte) :
    (m.write i v).within size = true :=
  insertCell_all h (by simpa using hi)

@[simp] theorem Memory.writeList_unwritten (m : Memory) (i : Nat) (vs : List Byte) :
    (m.writeList i vs).unwritten = m.unwritten := by
  induction vs generalizing m i with
  | nil => rfl
  | cons v vs ih => simp [Memory.writeList, ih]

theorem Memory.wf_writeList {m : Memory} (h : m.wf = true) (i : Nat) (vs : List Byte) : (m.writeList i vs).wf = true := by
  induction vs generalizing m i with
  | nil => exact h
  | cons v vs ih => exact ih (Memory.wf_write h i v) (i + 1)

theorem Memory.within_writeList {m : Memory} {size : Nat} (h : m.within size = true) {i : Nat} (vs : List Byte)
    (hi : i + vs.length ≤ size) : (m.writeList i vs).within size = true := by
  induction vs generalizing m i with
  | nil => exact h
  | cons v vs ih =>
    simp only [List.length_cons] at hi
    exact ih (Memory.within_write h (by omega) v) (by omega)

/-- A byte listed after a run of writes: the one written there, else the one listed before. -/
theorem lookupCell_writeList (m : Memory) (i : Nat) (vs : List Byte) (j : Nat) :
    lookupCell (m.writeList i vs).cells j =
      if i ≤ j then (vs[j - i]?).or (lookupCell m.cells j) else lookupCell m.cells j := by
  induction vs generalizing m i with
  | nil => simp [Memory.writeList]
  | cons v vs ih =>
    rw [Memory.writeList, ih]
    simp only [Memory.write, lookupCell_insertCell]
    rcases Nat.lt_trichotomy j i with h | h | h
    · have h1 : ¬ i + 1 ≤ j := by omega
      have h2 : ¬ i ≤ j := by omega
      have h3 : j ≠ i := by omega
      simp [h1, h2, h3]
    · subst h
      have h1 : ¬ j + 1 ≤ j := by omega
      simp [h1]
    · have h1 : i + 1 ≤ j := by omega
      have h2 : i ≤ j := by omega
      have h3 : j ≠ i := by omega
      have h4 : j - i = (j - (i + 1)) + 1 := by omega
      simp [h1, h2, h3, h4]

/-- A byte read after a run of writes. -/
theorem Memory.read_writeList (m : Memory) (i : Nat) (vs : List Byte) (j : Nat) :
    (m.writeList i vs).read j = if i ≤ j then (vs[j - i]?).getD (m.read j) else m.read j := by
  simp only [Memory.read, lookupCell_writeList, Memory.writeList_unwritten]
  split
  · cases vs[j - i]? <;> simp
  · rfl

theorem Memory.read_writeList_outside (m : Memory) (i : Nat) (vs : List Byte) {j : Nat}
    (h : j < i ∨ i + vs.length ≤ j) : (m.writeList i vs).read j = m.read j := by
  rw [Memory.read_writeList]
  split
  · rw [List.getElem?_eq_none (by omega)]
    rfl
  · rfl

/-- Two memories in canonical form whose draws and listed bytes agree are equal. -/
theorem Memory.ext_of_lookup {m m' : Memory} (h : m.wf = true) (h' : m'.wf = true) (hu : m.unwritten = m'.unwritten)
    (hl : ∀ j, lookupCell m.cells j = lookupCell m'.cells j) : m = m' := by
  obtain ⟨cs, u⟩ := m
  obtain ⟨ds, u'⟩ := m'
  have hc := cells_ext h h' hl
  simp_all

theorem Memory.writeList_append (m : Memory) (i : Nat) (us vs : List Byte) :
    m.writeList i (us ++ vs) = (m.writeList i us).writeList (i + us.length) vs := by
  induction us generalizing m i with
  | nil => rfl
  | cons u us ih =>
    simp only [List.cons_append, Memory.writeList, List.length_cons]
    rw [ih, show i + 1 + us.length = i + (us.length + 1) by omega]

@[simp] theorem Memory.readList_length (m : Memory) (i count : Nat) : (m.readList i count).length = count := by
  induction count generalizing i with
  | zero => rfl
  | succ count ih => simp [Memory.readList, ih]

theorem Memory.readList_getElem? (m : Memory) (i count j : Nat) :
    (m.readList i count)[j]? = if j < count then some (m.read (i + j)) else none := by
  induction count generalizing i j with
  | zero => simp [Memory.readList]
  | succ count ih =>
    cases j with
    | zero => simp [Memory.readList]
    | succ j =>
      simp only [Memory.readList, List.getElem?_cons_succ, ih]
      rw [show i + 1 + j = i + (j + 1) by omega]
      simp

theorem Memory.readList_congr {m m' : Memory} {i count : Nat}
    (h : ∀ j, i ≤ j → j < i + count → m.read j = m'.read j) : m.readList i count = m'.readList i count := by
  induction count generalizing i with
  | zero => rfl
  | succ count ih =>
    simp only [Memory.readList]
    rw [h i (by omega) (by omega), ih fun j h1 h2 => h j (by omega) (by omega)]

/-- Reading back a run of writes gives the bytes written. -/
theorem Memory.readList_writeList (m : Memory) (i : Nat) (vs : List Byte) :
    (m.writeList i vs).readList i vs.length = vs := by
  apply List.ext_getElem?
  intro j
  rw [Memory.readList_getElem?]
  split
  · rename_i h
    rw [Memory.read_writeList, List.getElem?_eq_getElem h]
    simp [h]
  · rename_i h
    rw [List.getElem?_eq_none (by omega)]

end Sys2Proof.Machine
end

