-- ==== Sys2Proof/Laws/Stuffing.lean ====
section
/-! SUPPORT. What the stuffer, the unstuffer and one write of the encoder can do (rules R110 to R112 of 40_stuffing.md, R172
of 43_encoder.md). -/

namespace Sys2Proof.Machine

/-- The stuffed form of a byte has one byte or two (R110). -/
theorem stuffBytes_cases (v : Byte) :
    ((v = flagByte ∨ v = escByte) ∧ stuffBytes v = [escByte, v ^^^ escXor])
      ∨ (v ≠ flagByte ∧ v ≠ escByte ∧ stuffBytes v = [v]) := by
  by_cases h : v = flagByte ∨ v = escByte
  · exact .inl ⟨h, by simp [stuffBytes, h]⟩
  · exact .inr ⟨fun h' => h (.inl h'), fun h' => h (.inr h'), by simp [stuffBytes, h]⟩

theorem stuffBytes_length (v : Byte) :
    (stuffBytes v).length = if v = flagByte ∨ v = escByte then 2 else 1 := by
  simp only [stuffBytes]
  split <;> rfl

@[simp] theorem unstuff_nil : unstuff [] = .error .incompleteFrame := rfl

@[simp] theorem unstuff_escape (y : Byte) (rest : List Byte) :
    unstuff (escByte :: y :: rest) = .ok (y ^^^ escXor, 2) := rfl

@[simp] theorem unstuff_dangling : unstuff [escByte] = .error .malformedStream := rfl

theorem unstuff_plain {v : Byte} (h : v ≠ escByte) (rest : List Byte) : unstuff (v :: rest) = .ok (v, 1) := by
  simp [unstuff, h]

/-- A unit consumes one byte or two of its input (R112). -/
theorem unstuff_ok {r : List Byte} {v : Byte} {k : Nat} (h : unstuff r = .ok (v, k)) :
    1 ≤ k ∧ k ≤ 2 ∧ k ≤ r.length := by
  cases r with
  | nil => simp [unstuff] at h
  | cons x rest =>
    by_cases hx : x = escByte
    · subst hx
      cases rest with
      | nil => simp [unstuff] at h
      | cons y rest =>
        simp only [unstuff_escape, Except.ok.injEq, Prod.mk.injEq] at h
        obtain ⟨-, rfl⟩ := h
        simp
    · rw [unstuff_plain hx] at h
      simp only [Except.ok.injEq, Prod.mk.injEq] at h
      obtain ⟨-, rfl⟩ := h
      simp

/-- The unstuffer fails in two ways only (R112). -/
theorem unstuff_error {r : List Byte} {e : Status} (h : unstuff r = .error e) :
    (r = [] ∧ e = .incompleteFrame) ∨ (r = [escByte] ∧ e = .malformedStream) := by
  cases r with
  | nil =>
    simp only [unstuff_nil, Except.error.injEq] at h
    exact .inl ⟨rfl, h.symm⟩
  | cons x rest =>
    by_cases hx : x = escByte
    · subst hx
      cases rest with
      | nil =>
        simp only [unstuff_dangling, Except.error.injEq] at h
        exact .inr ⟨rfl, h.symm⟩
      | cons y rest => simp at h
    · simp [unstuff_plain hx] at h

/-- A write happens whole when it fits under the capacity and not at all otherwise (R111, R172). -/
theorem performWrite_eq (cap : Nat) (w : WireWrite) (m : Memory) (wp : Nat) :
    performWrite cap w m wp =
      if cap < wp + (wireBytes w).length then .error .bufferTooSmall
      else .ok (m.writeList wp (wireBytes w), wp + (wireBytes w).length) := by
  cases w <;> rfl

end Sys2Proof.Machine
end

