-- ==== Sys2Proof/Laws/Decoder.lean ====
section
/-! SUPPORT. What each state of the decoder can do (rules R191 to R202 of 44_decoder.md). -/

namespace Sys2Proof.Machine

@[simp] theorem decodeByte_nil : decodeByte [] = .error .incompleteFrame := rfl

@[simp] theorem decodeByte_dangling : decodeByte [escByte] = .error .malformedStream := rfl

@[simp] theorem decodeByte_escape (y : Byte) (r : List Byte) :
    decodeByte (escByte :: y :: r) = .ok (y ^^^ escXor, r) := rfl

theorem decodeByte_plain {v : Byte} (h : v ≠ escByte) (r : List Byte) : decodeByte (v :: r) = .ok (v, r) := by
  simp [decodeByte, unstuff_plain h]

/-- A decoded byte is one unit at the front of the input (R112). -/
theorem decodeByte_ok {r r' : List Byte} {v : Byte} (h : decodeByte r = .ok (v, r')) :
    (v ≠ escByte ∧ r = v :: r') ∨ ∃ y, v = y ^^^ escXor ∧ r = escByte :: y :: r' := by
  cases r with
  | nil => simp at h
  | cons x rest =>
    by_cases hx : x = escByte
    · subst hx
      cases rest with
      | nil => simp at h
      | cons y rest =>
        simp only [decodeByte_escape, Except.ok.injEq, Prod.mk.injEq] at h
        exact .inr ⟨y, h.1.symm, by rw [h.2]⟩
    · rw [decodeByte_plain hx] at h
      simp only [Except.ok.injEq, Prod.mk.injEq] at h
      obtain ⟨rfl, rfl⟩ := h
      exact .inl ⟨hx, rfl⟩

/-- The two ways a byte can fail to decode (R112). -/
theorem decodeByte_error {r : List Byte} {e : Status} (h : decodeByte r = .error e) :
    (r = [] ∧ e = .incompleteFrame) ∨ (r = [escByte] ∧ e = .malformedStream) := by
  simp only [decodeByte] at h
  split at h
  · rename_i e' he
    simp only [Except.error.injEq] at h
    subst h
    exact unstuff_error he
  · simp at h

/-- Info ends where at most 3 raw bytes remain (R196). -/
theorem decodeInfo_stop {maxInfo passes : Nat} {info r : List Byte} (h : r.length ≤ 3) :
    decodeInfo maxInfo passes info r = .ok (info, r) := by
  cases passes <;> simp [decodeInfo, h]

/-- Info overflow (R197). -/
theorem decodeInfo_overflow {maxInfo passes : Nat} {info r : List Byte} (h : 3 < r.length) (hfull : info.length = maxInfo) :
    decodeInfo maxInfo (passes + 1) info r = .error .malformedStream := by
  simp [decodeInfo, Nat.not_le.mpr h, hfull]

/-- One pass of Info (R196). -/
theorem decodeInfo_pass {maxInfo passes : Nat} {info r r' : List Byte} {v : Byte} (h : 3 < r.length)
    (hroom : info.length ≠ maxInfo) (hv : decodeByte r = .ok (v, r')) :
    decodeInfo maxInfo (passes + 1) info r = decodeInfo maxInfo passes (info ++ [v]) r' := by
  simp [decodeInfo, Nat.not_le.mpr h, hroom, hv]

/-- Info never appends past MAX_INFO (R21, R197). -/
theorem decodeInfo_length_le {maxInfo passes : Nat} {info r info' r' : List Byte} (hle : info.length ≤ maxInfo)
    (h : decodeInfo maxInfo passes info r = .ok (info', r')) : info'.length ≤ maxInfo := by
  induction passes generalizing info r with
  | zero =>
    simp only [decodeInfo, Except.ok.injEq, Prod.mk.injEq] at h
    rw [← h.1]
    exact hle
  | succ passes ih =>
    simp only [decodeInfo] at h
    split at h
    · simp only [Except.ok.injEq, Prod.mk.injEq] at h
      rw [← h.1]
      exact hle
    · split at h
      · simp at h
      · rename_i hne
        split at h
        · simp at h
        · exact ih (by simp only [List.length_append, List.length_cons, List.length_nil]; omega) h

/-- With enough passes Info stops only at 3 remaining bytes or fewer (R196, R293). -/
theorem decodeInfo_rest_le {maxInfo passes : Nat} {info r info' r' : List Byte} (hp : r.length ≤ passes)
    (h : decodeInfo maxInfo passes info r = .ok (info', r')) : r'.length ≤ 3 := by
  induction passes generalizing info r with
  | zero =>
    simp only [decodeInfo, Except.ok.injEq, Prod.mk.injEq] at h
    rw [← h.2]
    omega
  | succ passes ih =>
    simp only [decodeInfo] at h
    split at h
    · rename_i hle
      simp only [Except.ok.injEq, Prod.mk.injEq] at h
      rw [← h.2]
      exact hle
    · split at h
      · simp at h
      · split at h
        · simp at h
        · rename_i v r₁ hv
          refine ih ?_ h
          rcases decodeByte_ok hv with ⟨-, rfl⟩ | ⟨y, -, rfl⟩ <;> simp only [List.length_cons] at hp <;> omega

@[simp] theorem unstuffAll_nil : unstuffAll [] = some [] := rfl

@[simp] theorem unstuffAll_escape (y : Byte) (r : List Byte) :
    unstuffAll (escByte :: y :: r) = (unstuffAll r).map ((y ^^^ escXor) :: ·) := rfl

theorem unstuffAll_plain {v : Byte} (h : v ≠ escByte) (r : List Byte) :
    unstuffAll (v :: r) = (unstuffAll r).map (v :: ·) := by
  rw [unstuffAll.eq_def]
  simp only [h, if_false]

end Sys2Proof.Machine
end

