-- ==== Sys2Proof/Laws/Encoder.lean ====
section
/-! SUPPORT. What a run of the encoder's writes can do (rule R170 of 43_encoder.md). -/

namespace Sys2Proof.Machine

/-- A run of writes from a write pointer within the capacity succeeds exactly when all its bytes fit, and then leaves them
one after another from the write pointer on. -/
theorem performWrites_eq (cap : Nat) (ws : List WireWrite) (m : Memory) {wp : Nat} (hwp : wp ≤ cap) :
    performWrites cap ws m wp =
      if cap < wp + (ws.flatMap wireBytes).length then .error .bufferTooSmall
      else .ok (m.writeList wp (ws.flatMap wireBytes), wp + (ws.flatMap wireBytes).length) := by
  induction ws generalizing m wp with
  | nil => simp [performWrites, Memory.writeList, Nat.not_lt.mpr hwp]
  | cons w ws ih =>
    simp only [performWrites, performWrite_eq, List.flatMap_cons, List.length_append, Memory.writeList_append]
    by_cases h : cap < wp + (wireBytes w).length
    · have h' : cap < wp + ((wireBytes w).length + (ws.flatMap wireBytes).length) := by omega
      simp only [h, h', if_true]
    · simp only [h, if_false, ih _ (Nat.le_of_not_lt h), Nat.add_assoc]

/-- The writes of ENCODE are the encoded frame (R87, R171). -/
theorem encodePlan_bytes (scope : FcsScope) (f : Frame) : (encodePlan scope f).flatMap wireBytes = wireFrame scope f := by
  simp [encodePlan, wireFrame, stuffedContent, wireBytes, List.flatMap_map]

/-- ENCODE within BUF_SIZE, as one case distinction on whether the encoded frame fits (R170). -/
theorem execEncode_eq (s : State) (n : Half) (h : n.toNat ≤ s.params.bufSize) :
    execEncode n s = .next
      (if n.toNat < (wireFrame s.params.fcsScope s.fr).length then s.encodeFailed n.toNat .bufferTooSmall
       else s.encodeOk (s.buf.writeList 0 (wireFrame s.params.fcsScope s.fr)) (wireFrame s.params.fcsScope s.fr).length) := by
  simp only [execEncode, Nat.not_lt.mpr h, if_false, performWrites_eq _ _ _ (Nat.zero_le _), encodePlan_bytes, Nat.zero_add]
  by_cases hlen : n.toNat < (wireFrame s.params.fcsScope s.fr).length <;> simp [hlen]

end Sys2Proof.Machine
end

