-- ==== Sys2Proof/Laws/Words.lean ====
section
/-! SUPPORT. The fields of a command word read back (rules R70 and R71 of 30_encoding.md). -/

namespace Sys2Proof

section wordABC
variable (c b a op : Byte)

@[simp] theorem opField_wordABC : opField (wordABC c b a op) = op := by
  apply BitVec.eq_of_getLsbD_eq
  intro i hi
  simp only [opField, wordABC, BitVec.getLsbD_extractLsb', BitVec.getLsbD_append, hi, Nat.zero_add]
  simp [hi]

@[simp] theorem aField_wordABC : aField (wordABC c b a op) = a := by
  apply BitVec.eq_of_getLsbD_eq
  intro i hi
  simp only [aField, wordABC, BitVec.getLsbD_extractLsb', BitVec.getLsbD_append, hi]
  simp [show ¬ 8 + i < 8 by omega, show 8 + i - 8 = i by omega, hi]

@[simp] theorem bField_wordABC : bField (wordABC c b a op) = b := by
  apply BitVec.eq_of_getLsbD_eq
  intro i hi
  simp only [bField, wordABC, BitVec.getLsbD_extractLsb', BitVec.getLsbD_append, hi]
  simp [show ¬ 16 + i < 8 by omega, show ¬ 16 + i - 8 < 8 by omega, show 16 + i - 8 - 8 = i by omega, hi]

@[simp] theorem cField_wordABC : cField (wordABC c b a op) = c := by
  apply BitVec.eq_of_getLsbD_eq
  intro i hi
  simp only [cField, wordABC, BitVec.getLsbD_extractLsb', BitVec.getLsbD_append, hi]
  simp [show ¬ 24 + i < 8 by omega, show ¬ 24 + i - 8 < 8 by omega, show ¬ 24 + i - 8 - 8 < 8 by omega,
    show 24 + i - 8 - 8 - 8 = i by omega]

theorem wordABC_getLsbD (i : Nat) : (wordABC c b a op).getLsbD i =
    if i < 8 then op.getLsbD i
    else if i < 16 then a.getLsbD (i - 8)
    else if i < 24 then b.getLsbD (i - 16)
    else c.getLsbD (i - 24) := by
  simp only [wordABC, BitVec.getLsbD_append]
  rcases Nat.lt_or_ge i 8 with h | h
  · simp [h]
  rcases Nat.lt_or_ge i 16 with h' | h'
  · simp [h', Nat.not_lt.mpr h, show i - 8 < 8 by omega]
  rcases Nat.lt_or_ge i 24 with h'' | h''
  · simp [h'', Nat.not_lt.mpr h, Nat.not_lt.mpr h', show ¬ i - 8 < 8 by omega, show i - 8 - 8 = i - 16 by omega,
      show i - 16 < 8 by omega]
  · simp [Nat.not_lt.mpr h, Nat.not_lt.mpr h', Nat.not_lt.mpr h'', show ¬ i - 8 < 8 by omega,
      show ¬ i - 8 - 8 < 8 by omega, show i - 8 - 8 - 8 = i - 24 by omega]

end wordABC

section wordNC
variable (c op : Byte) (n : Half)

@[simp] theorem opField_wordNC : opField (wordNC c n op) = op := by
  apply BitVec.eq_of_getLsbD_eq
  intro i hi
  simp only [opField, wordNC, BitVec.getLsbD_extractLsb', BitVec.getLsbD_append, hi, Nat.zero_add]
  simp

@[simp] theorem nField_wordNC : nField (wordNC c n op) = n := by
  apply BitVec.eq_of_getLsbD_eq
  intro i hi
  simp only [nField, wordNC, BitVec.getLsbD_extractLsb', BitVec.getLsbD_append, hi]
  simp [show ¬ 8 + i < 8 by omega, show 8 + i - 8 = i by omega, hi]

@[simp] theorem cField_wordNC : cField (wordNC c n op) = c := by
  apply BitVec.eq_of_getLsbD_eq
  intro i hi
  simp only [cField, wordNC, BitVec.getLsbD_extractLsb', BitVec.getLsbD_append, hi]
  simp [show ¬ 24 + i < 8 by omega, show ¬ 24 + i - 8 < 16 by omega, show 24 + i - 8 - 16 = i by omega]

end wordNC

end Sys2Proof
end

