-- ==== Sys2Proof/Laws/PerInstr.lean ====
section
/-! SUPPORT. Facts about each instruction as syntax: the word of every command carries its opcode in bits 7..0 (rule R72 of
30_encoding.md). -/

namespace Sys2Proof.Laws.OpcodeInWord

/-- Bits 7..0 of the command's word are the command's `op` (R70, R72). -/
def Statement (i : Instr) : Prop := opField (encode i) = opcode i

theorem nop : Statement .nop := opField_wordABC ..
theorem wrAddr (a : Byte) : Statement (.wrAddr a) := opField_wordABC ..
theorem wrCtrl (a : Byte) : Statement (.wrCtrl a) := opField_wordABC ..
theorem wrLen (a : Byte) : Statement (.wrLen a) := opField_wordABC ..
theorem wrInfo (a b : Byte) : Statement (.wrInfo a b) := opField_wordABC ..
theorem rdAddr : Statement .rdAddr := opField_wordABC ..
theorem rdCtrl : Statement .rdCtrl := opField_wordABC ..
theorem rdLen : Statement .rdLen := opField_wordABC ..
theorem rdInfo (a : Byte) : Statement (.rdInfo a) := opField_wordABC ..
theorem clrFrame : Statement .clrFrame := opField_wordABC ..
theorem wrBuf (n : Half) (c : Byte) : Statement (.wrBuf n c) := opField_wordNC ..
theorem rdBuf (n : Half) : Statement (.rdBuf n) := opField_wordNC ..
theorem stuff (a b : Byte) : Statement (.stuff a b) := opField_wordABC ..
theorem unstuff (a b c : Byte) : Statement (.unstuff a b c) := opField_wordABC ..
theorem buildI (a b c : Byte) : Statement (.buildI a b c) := opField_wordABC ..
theorem buildS (a b c : Byte) : Statement (.buildS a b c) := opField_wordABC ..
theorem buildU (a b : Byte) : Statement (.buildU a b) := opField_wordABC ..
theorem ctrlParse (a : Byte) : Statement (.ctrlParse a) := opField_wordABC ..
theorem crcBuf (n : Half) : Statement (.crcBuf n) := opField_wordNC ..
theorem encode (n : Half) : Statement (.encode n) := opField_wordNC ..
theorem decode (n : Half) : Statement (.decode n) := opField_wordNC ..

end Sys2Proof.Laws.OpcodeInWord
end

