-- ==== Sys2Proof/Laws/State.lean ====
section
/-! SUPPORT. For each update of State and each field, what the field is after the update. -/

namespace Sys2Proof.Machine

section complete
variable (s : State) (st : Status) (v : Word)

@[simp] theorem State.complete_params : (s.complete st v).params = s.params := rfl
@[simp] theorem State.complete_fr : (s.complete st v).fr = s.fr := rfl
@[simp] theorem State.complete_buf : (s.complete st v).buf = s.buf := rfl
@[simp] theorem State.complete_crc : (s.complete st v).crc = s.crc := rfl
@[simp] theorem State.complete_enc : (s.complete st v).enc = s.enc := rfl
@[simp] theorem State.complete_dec : (s.complete st v).dec = s.dec := rfl
@[simp] theorem State.complete_response : (s.complete st v).response = some { status := st, value := v } := rfl
@[simp] theorem State.complete_input : (s.complete st v).input = s.input := rfl
@[simp] theorem State.complete_draws : (s.complete st v).draws = s.draws := rfl

end complete

section raise
variable (s : State) (e : Status)

@[simp] theorem State.raise_params : (s.raise e).params = s.params := rfl
@[simp] theorem State.raise_fr : (s.raise e).fr = s.fr := rfl
@[simp] theorem State.raise_buf : (s.raise e).buf = s.buf := rfl
@[simp] theorem State.raise_crc : (s.raise e).crc = s.crc := rfl
@[simp] theorem State.raise_enc : (s.raise e).enc = s.enc := rfl
@[simp] theorem State.raise_dec : (s.raise e).dec = s.dec := rfl
@[simp] theorem State.raise_response : (s.raise e).response = some { status := e, value := 0 } := rfl
@[simp] theorem State.raise_input : (s.raise e).input = s.input := rfl
@[simp] theorem State.raise_draws : (s.raise e).draws = s.draws := rfl

end raise

section drawBuf
variable (s : State) (cap : Nat)

@[simp] theorem State.drawBuf_params : (s.drawBuf cap).params = s.params := rfl
@[simp] theorem State.drawBuf_fr : (s.drawBuf cap).fr = s.fr := rfl
@[simp] theorem State.drawBuf_buf : (s.drawBuf cap).buf = s.buf.writeList 0 (drawBytes s.draws cap) := rfl
@[simp] theorem State.drawBuf_crc : (s.drawBuf cap).crc = s.crc := rfl
@[simp] theorem State.drawBuf_enc : (s.drawBuf cap).enc = s.enc := rfl
@[simp] theorem State.drawBuf_dec : (s.drawBuf cap).dec = s.dec := rfl
@[simp] theorem State.drawBuf_response : (s.drawBuf cap).response = s.response := rfl
@[simp] theorem State.drawBuf_input : (s.drawBuf cap).input = s.input := rfl
@[simp] theorem State.drawBuf_draws : (s.drawBuf cap).draws = s.draws + cap := rfl

end drawBuf

section drawFrame
variable (s : State)

@[simp] theorem State.drawFrame_params : (s.drawFrame).params = s.params := rfl
@[simp] theorem State.drawFrame_buf : (s.drawFrame).buf = s.buf := rfl
@[simp] theorem State.drawFrame_crc : (s.drawFrame).crc = s.crc := rfl
@[simp] theorem State.drawFrame_enc : (s.drawFrame).enc = s.enc := rfl
@[simp] theorem State.drawFrame_dec : (s.drawFrame).dec = s.dec := rfl
@[simp] theorem State.drawFrame_response : (s.drawFrame).response = s.response := rfl
@[simp] theorem State.drawFrame_input : (s.drawFrame).input = s.input := rfl
@[simp] theorem State.drawFrame_draws : (s.drawFrame).draws = s.draws + 3 + s.params.maxInfo := rfl

end drawFrame

section drawCrc
variable (s : State)

@[simp] theorem State.drawCrc_params : (s.drawCrc).params = s.params := rfl
@[simp] theorem State.drawCrc_fr : (s.drawCrc).fr = s.fr := rfl
@[simp] theorem State.drawCrc_buf : (s.drawCrc).buf = s.buf := rfl
@[simp] theorem State.drawCrc_crc : (s.drawCrc).crc = Config.draw s.draws := rfl
@[simp] theorem State.drawCrc_enc : (s.drawCrc).enc = s.enc := rfl
@[simp] theorem State.drawCrc_dec : (s.drawCrc).dec = s.dec := rfl
@[simp] theorem State.drawCrc_response : (s.drawCrc).response = s.response := rfl
@[simp] theorem State.drawCrc_input : (s.drawCrc).input = s.input := rfl
@[simp] theorem State.drawCrc_draws : (s.drawCrc).draws = s.draws + 1 := rfl

end drawCrc

section drawEncoder
variable (s : State)

@[simp] theorem State.drawEncoder_params : (s.drawEncoder).params = s.params := rfl
@[simp] theorem State.drawEncoder_fr : (s.drawEncoder).fr = s.fr := rfl
@[simp] theorem State.drawEncoder_buf : (s.drawEncoder).buf = s.buf := rfl
@[simp] theorem State.drawEncoder_crc : (s.drawEncoder).crc = Config.draw s.draws := rfl
@[simp] theorem State.drawEncoder_dec : (s.drawEncoder).dec = s.dec := rfl
@[simp] theorem State.drawEncoder_response : (s.drawEncoder).response = s.response := rfl
@[simp] theorem State.drawEncoder_input : (s.drawEncoder).input = s.input := rfl
@[simp] theorem State.drawEncoder_draws : (s.drawEncoder).draws = s.draws + 4 := rfl

end drawEncoder

section drawDecoder
variable (s : State)

@[simp] theorem State.drawDecoder_params : (s.drawDecoder).params = s.params := rfl
@[simp] theorem State.drawDecoder_fr : (s.drawDecoder).fr = s.fr := rfl
@[simp] theorem State.drawDecoder_buf : (s.drawDecoder).buf = s.buf := rfl
@[simp] theorem State.drawDecoder_crc : (s.drawDecoder).crc = Config.draw s.draws := rfl
@[simp] theorem State.drawDecoder_enc : (s.drawDecoder).enc = s.enc := rfl
@[simp] theorem State.drawDecoder_response : (s.drawDecoder).response = s.response := rfl
@[simp] theorem State.drawDecoder_input : (s.drawDecoder).input = s.input := rfl
@[simp] theorem State.drawDecoder_draws : (s.drawDecoder).draws = s.draws + 7 := rfl

end drawDecoder

section applyReset
variable (s : State)

@[simp] theorem State.applyReset_params : (s.applyReset).params = s.params := rfl
@[simp] theorem State.applyReset_fr : (s.applyReset).fr = Frame.zero s.params.maxInfo := rfl
@[simp] theorem State.applyReset_buf : (s.applyReset).buf = { cells := [], unwritten := s.draws } := rfl
@[simp] theorem State.applyReset_crc : (s.applyReset).crc = 0 := rfl
@[simp] theorem State.applyReset_enc : (s.applyReset).enc = Encoder.atReset := rfl
@[simp] theorem State.applyReset_dec : (s.applyReset).dec = Decoder.atReset := rfl
@[simp] theorem State.applyReset_response : (s.applyReset).response = none := rfl
@[simp] theorem State.applyReset_input : (s.applyReset).input = s.input := rfl
@[simp] theorem State.applyReset_draws : (s.applyReset).draws = s.draws + s.params.bufSize := rfl

end applyReset

section loadControl
variable (s : State) (x : Byte)

@[simp] theorem State.loadControl_params : (s.loadControl x).params = s.params := rfl
@[simp] theorem State.loadControl_fr : (s.loadControl x).fr = { s.fr with control := x } := rfl
@[simp] theorem State.loadControl_buf : (s.loadControl x).buf = s.buf := rfl
@[simp] theorem State.loadControl_crc : (s.loadControl x).crc = s.crc := rfl
@[simp] theorem State.loadControl_enc : (s.loadControl x).enc = s.enc := rfl
@[simp] theorem State.loadControl_dec : (s.loadControl x).dec = s.dec := rfl
@[simp] theorem State.loadControl_response : (s.loadControl x).response = some { status := .ok, value := zext32 x } := rfl
@[simp] theorem State.loadControl_input : (s.loadControl x).input = s.input := rfl
@[simp] theorem State.loadControl_draws : (s.loadControl x).draws = s.draws := rfl

end loadControl

section encodeOk
variable (s : State) (m : Memory) (wp : Nat)

@[simp] theorem State.encodeOk_params : (s.encodeOk m wp).params = s.params := rfl
@[simp] theorem State.encodeOk_fr : (s.encodeOk m wp).fr = s.fr := rfl
@[simp] theorem State.encodeOk_buf : (s.encodeOk m wp).buf = m := rfl
@[simp] theorem State.encodeOk_crc : (s.encodeOk m wp).crc = Config.draw s.draws := rfl
@[simp] theorem State.encodeOk_dec : (s.encodeOk m wp).dec = s.dec := rfl
@[simp] theorem State.encodeOk_response : (s.encodeOk m wp).response = some { status := .ok, value := BitVec.ofNat 32 wp } := rfl
@[simp] theorem State.encodeOk_input : (s.encodeOk m wp).input = s.input := rfl
@[simp] theorem State.encodeOk_draws : (s.encodeOk m wp).draws = s.draws + 4 := rfl

end encodeOk

section encodeFailed
variable (s : State) (cap : Nat) (e : Status)

@[simp] theorem State.encodeFailed_params : (s.encodeFailed cap e).params = s.params := rfl
@[simp] theorem State.encodeFailed_fr : (s.encodeFailed cap e).fr = s.fr := rfl
@[simp] theorem State.encodeFailed_buf : (s.encodeFailed cap e).buf = s.buf.writeList 0 (drawBytes s.draws cap) := rfl
@[simp] theorem State.encodeFailed_crc : (s.encodeFailed cap e).crc = Config.draw (s.draws + cap) := rfl
@[simp] theorem State.encodeFailed_dec : (s.encodeFailed cap e).dec = s.dec := rfl
@[simp] theorem State.encodeFailed_response : (s.encodeFailed cap e).response = some { status := e, value := 0 } := rfl
@[simp] theorem State.encodeFailed_input : (s.encodeFailed cap e).input = s.input := rfl
@[simp] theorem State.encodeFailed_draws : (s.encodeFailed cap e).draws = s.draws + cap + 4 := rfl

end encodeFailed

section decodeOk
variable (s : State) (f : Frame)

@[simp] theorem State.decodeOk_params : (s.decodeOk f).params = s.params := rfl
@[simp] theorem State.decodeOk_fr : (s.decodeOk f).fr = f := rfl
@[simp] theorem State.decodeOk_buf : (s.decodeOk f).buf = s.buf := rfl
@[simp] theorem State.decodeOk_crc : (s.decodeOk f).crc = Config.draw s.draws := rfl
@[simp] theorem State.decodeOk_enc : (s.decodeOk f).enc = s.enc := rfl
@[simp] theorem State.decodeOk_response : (s.decodeOk f).response = some { status := .ok, value := zext32 f.infoLen } := rfl
@[simp] theorem State.decodeOk_input : (s.decodeOk f).input = s.input := rfl
@[simp] theorem State.decodeOk_draws : (s.decodeOk f).draws = s.draws + 7 := rfl

end decodeOk

section decodeFailed
variable (s : State) (e : Status)

@[simp] theorem State.decodeFailed_params : (s.decodeFailed e).params = s.params := rfl
@[simp] theorem State.decodeFailed_fr : (s.decodeFailed e).fr = s.drawFrame.fr := rfl
@[simp] theorem State.decodeFailed_buf : (s.decodeFailed e).buf = s.buf := rfl
@[simp] theorem State.decodeFailed_crc : (s.decodeFailed e).crc = Config.draw (s.draws + 3 + s.params.maxInfo) := rfl
@[simp] theorem State.decodeFailed_enc : (s.decodeFailed e).enc = s.enc := rfl
@[simp] theorem State.decodeFailed_response : (s.decodeFailed e).response = some { status := e, value := 0 } := rfl
@[simp] theorem State.decodeFailed_input : (s.decodeFailed e).input = s.input := rfl
@[simp] theorem State.decodeFailed_draws : (s.decodeFailed e).draws = s.draws + 3 + s.params.maxInfo + 7 := rfl

end decodeFailed

section withFetchWord
variable (s : State) (nbits w : Nat)

@[simp] theorem State.withFetchWord_input :
    (s.withFetchWord nbits w).input = .command (tableWord nbits w) :: s.input := rfl
@[simp] theorem State.withFetchWord_rest : { s.withFetchWord nbits w with input := s.input } = s := rfl

end withFetchWord

section frame
variable (f : Frame) (i : Nat) (v : Byte)

@[simp] theorem Frame.setInfo_address : (f.setInfo i v).address = f.address := rfl
@[simp] theorem Frame.setInfo_control : (f.setInfo i v).control = f.control := rfl
@[simp] theorem Frame.setInfo_infoLen : (f.setInfo i v).infoLen = f.infoLen := rfl
@[simp] theorem Frame.setInfo_info : (f.setInfo i v).info = f.info.set i v := rfl
@[simp] theorem Frame.zero_infoLen (maxInfo : Nat) : (Frame.zero maxInfo).infoLen = 0 := rfl
@[simp] theorem Frame.zero_length (maxInfo : Nat) : (Frame.zero maxInfo).info.length = maxInfo := by
  simp [Frame.zero]

end frame

/-- The drawn info_len is in 0..MAX_INFO (R203). -/
theorem State.drawFrame_infoLen_le (s : State) : s.drawFrame.fr.infoLen.toNat ≤ s.params.maxInfo := by
  have h : drawUpTo (s.draws + 2) s.params.maxInfo ≤ s.params.maxInfo :=
    Nat.le_of_lt_succ (Nat.mod_lt _ (Nat.succ_pos _))
  simp only [State.drawFrame, BitVec.toNat_ofNat]
  exact Nat.le_trans (Nat.mod_le _ _) h

@[simp] theorem drawBytes_length (k count : Nat) : (drawBytes k count).length = count := by
  simp [drawBytes]

/-- The drawn FR.info has MAX_INFO bytes (R203). -/
@[simp] theorem State.drawFrame_info_length (s : State) : s.drawFrame.fr.info.length = s.params.maxInfo := by
  simp [State.drawFrame]

end Sys2Proof.Machine
end

