-- ==== Sys2Proof/Laws/Step.lean ====
section
/-! SUPPORT. What the host's next event is, and what each instruction's arm is. -/

namespace Sys2Proof.Machine

theorem fetch_nil {s : State} (h : s.input = []) : s.fetch = none := by
  simp [State.fetch, h]

theorem fetch_cons {s : State} {e : HostEvent} {rest : List HostEvent} (h : s.input = e :: rest) :
    s.fetch = some (e, { s with input := rest }) := by
  simp [State.fetch, h]

/-- Everything a step can do: stay idle, reset, answer an undefined command, or run a command. -/
theorem step_cases (s : State) :
    (s.input = [] ∧ step s = .next s)
      ∨ (∃ rest, s.input = .reset :: rest ∧ step s = .next (State.applyReset { s with input := rest }))
      ∨ (∃ w rest e, s.input = .command w :: rest ∧ decode w = .error e
          ∧ step s = .next (State.undefinedCommand { s with input := rest }))
      ∨ (∃ w rest i, s.input = .command w :: rest ∧ decode w = .ok i ∧ step s = exec i { s with input := rest }) := by
  rcases h : s.input with _ | ⟨e, rest⟩
  · exact .inl ⟨rfl, by simp [step, fetch_nil h]⟩
  · cases e with
    | reset => exact .inr (.inl ⟨rest, rfl, by simp [step, fetch_cons h]⟩)
    | command w =>
      cases hd : decode w with
      | error e => exact .inr (.inr (.inl ⟨w, rest, e, rfl, hd, by simp [step, fetch_cons h, hd]⟩))
      | ok i => exact .inr (.inr (.inr ⟨w, rest, i, rfl, hd, by simp [step, fetch_cons h, hd]⟩))

end Sys2Proof.Machine
end

