-- ==== Sys2Proof/Laws/Steps.lean ====
section
/-! SUPPORT. For each update of the per-byte encoder and decoder (rules R181 and R210) and each field, what the field is after
the update; and how a run of steps unfolds. -/

namespace Sys2Proof.Machine

section encodeBegin
variable (s : State)

@[simp] theorem State.encodeBegin_params : (s.encodeBegin).params = s.params := rfl
@[simp] theorem State.encodeBegin_fr : (s.encodeBegin).fr = s.fr := rfl
@[simp] theorem State.encodeBegin_buf : (s.encodeBegin).buf = s.buf := rfl
@[simp] theorem State.encodeBegin_crc : (s.encodeBegin).crc = crcInit := rfl
@[simp] theorem State.encodeBegin_enc : (s.encodeBegin).enc = { s.enc with phase := .startFlag, wp := 0 } := rfl
@[simp] theorem State.encodeBegin_dec : (s.encodeBegin).dec = s.dec := rfl
@[simp] theorem State.encodeBegin_response : (s.encodeBegin).response = s.response := rfl
@[simp] theorem State.encodeBegin_input : (s.encodeBegin).input = s.input := rfl
@[simp] theorem State.encodeBegin_draws : (s.encodeBegin).draws = s.draws := rfl

end encodeBegin

section feedCrc
variable (s : State) (v : Byte)

@[simp] theorem State.feedCrc_params : (s.feedCrc v).params = s.params := rfl
@[simp] theorem State.feedCrc_fr : (s.feedCrc v).fr = s.fr := rfl
@[simp] theorem State.feedCrc_buf : (s.feedCrc v).buf = s.buf := rfl
@[simp] theorem State.feedCrc_crc : (s.feedCrc v).crc = (fcsUnit s.params.fcsScope v).foldl crcUpdate s.crc := rfl
@[simp] theorem State.feedCrc_enc : (s.feedCrc v).enc = s.enc := rfl
@[simp] theorem State.feedCrc_dec : (s.feedCrc v).dec = s.dec := rfl
@[simp] theorem State.feedCrc_response : (s.feedCrc v).response = s.response := rfl
@[simp] theorem State.feedCrc_input : (s.feedCrc v).input = s.input := rfl
@[simp] theorem State.feedCrc_draws : (s.feedCrc v).draws = s.draws := rfl

end feedCrc

section decodeBegin
variable (s : State) (n : Nat)

@[simp] theorem State.decodeBegin_params : (s.decodeBegin n).params = s.params := rfl
@[simp] theorem State.decodeBegin_fr : (s.decodeBegin n).fr = Frame.zero s.params.maxInfo := rfl
@[simp] theorem State.decodeBegin_buf : (s.decodeBegin n).buf = s.buf := rfl
@[simp] theorem State.decodeBegin_crc : (s.decodeBegin n).crc = crcInit := rfl
@[simp] theorem State.decodeBegin_enc : (s.decodeBegin n).enc = s.enc := rfl
@[simp] theorem State.decodeBegin_dec : (s.decodeBegin n).dec = { s.dec with phase := .awaitStartFlag, n := n, c := 0, fcsHiRead := false } := rfl
@[simp] theorem State.decodeBegin_response : (s.decodeBegin n).response = s.response := rfl
@[simp] theorem State.decodeBegin_input : (s.decodeBegin n).input = s.input := rfl
@[simp] theorem State.decodeBegin_draws : (s.decodeBegin n).draws = s.draws := rfl

end decodeBegin

section enterControl
variable (s : State)

@[simp] theorem State.enterControl_params : (s.enterControl).params = s.params := rfl
@[simp] theorem State.enterControl_fr : (s.enterControl).fr = s.fr := rfl
@[simp] theorem State.enterControl_buf : (s.enterControl).buf = s.buf := rfl
@[simp] theorem State.enterControl_crc : (s.enterControl).crc = s.crc := rfl
@[simp] theorem State.enterControl_enc : (s.enterControl).enc = s.enc := rfl
@[simp] theorem State.enterControl_dec : (s.enterControl).dec = { s.dec with phase := .control } := rfl
@[simp] theorem State.enterControl_response : (s.enterControl).response = s.response := rfl
@[simp] theorem State.enterControl_input : (s.enterControl).input = s.input := rfl
@[simp] theorem State.enterControl_draws : (s.enterControl).draws = s.draws := rfl

end enterControl

section enterFcs
variable (s : State)

@[simp] theorem State.enterFcs_params : (s.enterFcs).params = s.params := rfl
@[simp] theorem State.enterFcs_fr : (s.enterFcs).fr = s.fr := rfl
@[simp] theorem State.enterFcs_buf : (s.enterFcs).buf = s.buf := rfl
@[simp] theorem State.enterFcs_crc : (s.enterFcs).crc = s.crc := rfl
@[simp] theorem State.enterFcs_enc : (s.enterFcs).enc = s.enc := rfl
@[simp] theorem State.enterFcs_response : (s.enterFcs).response = s.response := rfl
@[simp] theorem State.enterFcs_input : (s.enterFcs).input = s.input := rfl
@[simp] theorem State.enterFcs_draws : (s.enterFcs).draws = s.draws := rfl
@[simp] theorem State.enterFcs_phase : s.enterFcs.dec.phase = .fcs := rfl
@[simp] theorem State.enterFcs_n : s.enterFcs.dec.n = s.dec.n := rfl
@[simp] theorem State.enterFcs_c : s.enterFcs.dec.c = s.dec.c := rfl
@[simp] theorem State.enterFcs_fcsHiRead : s.enterFcs.dec.fcsHiRead = false := rfl

end enterFcs

/-- What entering Info does: with at most 3 raw bytes left it enters FCS instead (R196). -/
theorem State.enterInfo_cases (s : State) :
    (s.dec.n - s.dec.c ≤ 3 ∧ s.enterInfo = s.enterFcs)
      ∨ (3 < s.dec.n - s.dec.c ∧ s.enterInfo = { s with dec := { s.dec with phase := .info } }) := by
  by_cases h : s.dec.n - s.dec.c ≤ 3
  · exact .inl ⟨h, if_pos h⟩
  · exact .inr ⟨Nat.not_le.mp h, if_neg h⟩

section run
variable (f : State → Progress) (fuel : Nat) {s t : State}

theorem runSteps_ended (h : f s = .ended t) : runSteps f (fuel + 1) s = some t := by
  simp [runSteps, h]

theorem runSteps_running (h : f s = .running t) : runSteps f (fuel + 1) s = runSteps f fuel t := by
  simp [runSteps, h]

end run

/-- What one unit of the decoder does (R112): an error ends the command, a value goes on. -/
theorem State.decodeUnit_cases (s : State) (goOn : Byte → Nat → Progress) :
    (∃ e, unstuff s.decodeRest = .error e ∧ s.decodeUnit goOn = .ended (s.decodeFailed e))
      ∨ ∃ v k, unstuff s.decodeRest = .ok (v, k) ∧ s.decodeUnit goOn = goOn v k := by
  unfold State.decodeUnit
  split
  · exact .inl ⟨_, ‹_›, rfl⟩
  · exact .inr ⟨_, _, ‹_›, rfl⟩

end Sys2Proof.Machine
end

