-- ==== Sys2Proof/Machine/Assembler.lean ====
section
/-! DEFINITION. The written form of commands: the assembler syntax (rule R78 of 30_encoding.md) and the two
pseudo-instructions (rule R79). The block never sees this text: it gets the words. Points the rules leave open are log 17. -/

namespace Sys2Proof.Machine

/-- `WR_INFO k, v` for each byte, from index `k` on (R79). -/
def writeInfos (k : Nat) : List Byte → List Instr
  | [] => []
  | v :: vs => .wrInfo (BitVec.ofNat 8 k) v :: writeInfos (k + 1) vs

/-- `WR_BUF k, v` for each byte, from index `k` on (R79). -/
def writeBufs (k : Nat) : List Byte → List Instr
  | [] => []
  | v :: vs => .wrBuf (BitVec.ofNat 16 k) v :: writeBufs (k + 1) vs

/-- The pseudo-instruction `FRAME addr, ctrl, [i0, ..., ik-1]` (R79). R79 is silent on more than 255 bytes, whose count no WR_LEN
holds: `assembleFrame` refuses such a list (DESIGN CHOICE, log 17). -/
def frameCommands (addr ctrl : Byte) (info : List Byte) : List Instr :=
  [.clrFrame, .wrAddr addr, .wrCtrl ctrl] ++ writeInfos 0 info ++ [.wrLen (BitVec.ofNat 8 info.length)]

/-- The pseudo-instruction `BUFLOAD [b0, ..., bm-1]` (R79). R79 is silent on more than 65536 bytes, whose indices no WR_BUF holds:
`assembleBufload` refuses such a list (DESIGN CHOICE, log 17). -/
def bufloadCommands (bytes : List Byte) : List Instr := writeBufs 0 bytes

/-- The text before a comment (R78). -/
def stripComment (t : List Char) : List Char := t.takeWhile (· ≠ ';')

/-- A text without the blanks at its two ends. -/
def trimBlanks (t : List Char) : List Char :=
  ((t.dropWhile Char.isWhitespace).reverse.dropWhile Char.isWhitespace).reverse

/-- The pieces between commas, trimmed; a blank text has none. -/
def splitCommas (t : List Char) : List (List Char) :=
  if trimBlanks t = [] then [] else (t.splitOn ',').map trimBlanks

/-- The value of a digit in a base up to 16. -/
def digitValue (base : Nat) (c : Char) : Option Nat :=
  let v :=
    if '0' ≤ c ∧ c ≤ '9' then c.toNat - '0'.toNat
    else if 'a' ≤ c ∧ c ≤ 'f' then c.toNat - 'a'.toNat + 10
    else if 'A' ≤ c ∧ c ≤ 'F' then c.toNat - 'A'.toNat + 10
    else base
  if v < base then some v else none

/-- A non-empty string of digits, highest first. -/
def parseDigits (base : Nat) : List Char → Option Nat
  | [] => none
  | cs => cs.foldl (fun acc c => match acc, digitValue base c with
      | some n, some d => some (n * base + d)
      | _, _ => none) (some 0)

/-- A number, decimal or hexadecimal with the prefix 0x (R78). -/
def parseNumber : List Char → Option Nat
  | '0' :: 'x' :: ds => parseDigits 16 ds
  | ds => parseDigits 10 ds

/-- A number of `w` bits. -/
def parseField (w : Nat) (t : List Char) : Option (BitVec w) :=
  match parseNumber t with
  | some n => if n < 2 ^ w then some (BitVec.ofNat w n) else none
  | none => none

/-- The S-code names of R78. -/
def scodeNames : List (List Char × SCode) :=
  [("RR".toList, .rr), ("REJ".toList, .rej), ("RNR".toList, .rnr), ("SREJ".toList, .srej)]

/-- The U code names of R78. -/
def ucodeNames : List (List Char × UCode) :=
  [("SNRM".toList, .snrm), ("SABM".toList, .sabm), ("SABME".toList, .sabme), ("DISC".toList, .disc),
    ("UA".toList, .ua), ("RSET".toList, .rset), ("FRMR".toList, .frmr)]

/-- BUILD_S's first operand: a name or a number (R78). -/
def parseSCode (t : List Char) : Option Byte :=
  match scodeNames.find? (·.1 = t) with
  | some x => some x.2.code
  | none => parseField 8 t

/-- BUILD_U's first operand: a name or a number (R78). -/
def parseUCode (t : List Char) : Option Byte :=
  match ucodeNames.find? (·.1 = t) with
  | some x => some x.2.code
  | none => parseField 8 t

/-- All bytes of a list of texts, none if one is no byte. -/
def parseBytes : List (List Char) → Option (List Byte)
  | [] => some []
  | t :: ts =>
    match parseField 8 t, parseBytes ts with
    | some v, some vs => some (v :: vs)
    | _, _ => none

/-- A bracketed list of bytes (R79). -/
def parseList (t : List Char) : Option (List Byte) :=
  match t with
  | '[' :: rest =>
    match rest.reverse with
    | ']' :: inner => parseBytes (splitCommas inner.reverse)
    | _ => none
  | _ => none

/-- A command with no operand. -/
def form0 (i : Instr) : List (List Char) → Option (List Instr)
  | [] => some [i]
  | _ => none

/-- A command with one byte operand, which `p` reads. -/
def form1 (f : Byte → Instr) (p : List Char → Option Byte) : List (List Char) → Option (List Instr)
  | [x] => (p x).map fun a => [f a]
  | _ => none

/-- A command with two byte operands, the first of which `p` reads. -/
def form2 (f : Byte → Byte → Instr) (p : List Char → Option Byte) : List (List Char) → Option (List Instr)
  | [x, y] =>
    match p x, parseField 8 y with
    | some a, some b => some [f a b]
    | _, _ => none
  | _ => none

/-- A command with three byte operands, the first of which `p` reads. -/
def form3 (f : Byte → Byte → Byte → Instr) (p : List Char → Option Byte) : List (List Char) → Option (List Instr)
  | [x, y, z] =>
    match p x, parseField 8 y, parseField 8 z with
    | some a, some b, some c => some [f a b c]
    | _, _, _ => none
  | _ => none

/-- A command with a 16-bit operand. -/
def formN (f : Half → Instr) : List (List Char) → Option (List Instr)
  | [x] => (parseField 16 x).map fun n => [f n]
  | _ => none

/-- A command with a 16-bit operand and a byte operand. -/
def formNC (f : Half → Byte → Instr) : List (List Char) → Option (List Instr)
  | [x, y] =>
    match parseField 16 x, parseField 8 y with
    | some n, some c => some [f n c]
    | _, _ => none
  | _ => none

/-- The mnemonics, each with the reader of its operands in the order of R72's operand column (R78). -/
def mnemonicForms : List (List Char × (List (List Char) → Option (List Instr))) :=
  [("NOP".toList, form0 .nop),
    ("WR_ADDR".toList, form1 .wrAddr (parseField 8)),
    ("WR_CTRL".toList, form1 .wrCtrl (parseField 8)),
    ("WR_LEN".toList, form1 .wrLen (parseField 8)),
    ("WR_INFO".toList, form2 .wrInfo (parseField 8)),
    ("RD_ADDR".toList, form0 .rdAddr),
    ("RD_CTRL".toList, form0 .rdCtrl),
    ("RD_LEN".toList, form0 .rdLen),
    ("RD_INFO".toList, form1 .rdInfo (parseField 8)),
    ("CLR_FRAME".toList, form0 .clrFrame),
    ("WR_BUF".toList, formNC .wrBuf),
    ("RD_BUF".toList, formN .rdBuf),
    ("STUFF".toList, form2 .stuff (parseField 8)),
    ("UNSTUFF".toList, form3 .unstuff (parseField 8)),
    ("BUILD_I".toList, form3 .buildI (parseField 8)),
    ("BUILD_S".toList, form3 .buildS parseSCode),
    ("BUILD_U".toList, form2 .buildU parseUCode),
    ("CTRL_PARSE".toList, form1 .ctrlParse (parseField 8)),
    ("CRC_BUF".toList, formN .crcBuf),
    ("ENCODE".toList, formN .encode),
    ("DECODE".toList, formN .decode)]

/-- FRAME's operands, given as text: two bytes and a bracketed list (R79). -/
def assembleFrame (t : List Char) : Option (List Instr) :=
  let list := t.dropWhile (· ≠ '[')
  match splitCommas (t.takeWhile (· ≠ '[')), parseList list with
  | [x, y, []], some info =>
    match parseField 8 x, parseField 8 y with
    | some a, some c => if info.length < 256 then some (frameCommands a c info) else none
    | _, _ => none
  | _, _ => none

/-- BUFLOAD's operand, given as text: a bracketed list (R79) of at most 65536 bytes (log 17). -/
def assembleBufload (t : List Char) : Option (List Instr) :=
  match parseList t with
  | some bytes => if bytes.length ≤ 65536 then some (bufloadCommands bytes) else none
  | none => none

/-- The commands one line of program text stands for (R78, R79); a line with no command stands for none. -/
def assembleLine (line : List Char) : Option (List Instr) :=
  let t := trimBlanks (stripComment line)
  let name := t.takeWhile fun c => !c.isWhitespace
  let operands := trimBlanks (t.dropWhile fun c => !c.isWhitespace)
  if t = [] then some []
  else if name = "FRAME".toList then assembleFrame operands
  else if name = "BUFLOAD".toList then assembleBufload operands
  else
    match mnemonicForms.find? (·.1 = name) with
    | some x => x.2 (splitCommas operands)
    | none => none

/-- The command words of one line of program text. -/
def assembleWords (line : List Char) : Option (List Word) := (assembleLine line).map (·.map encode)

end Sys2Proof.Machine
end

