-- ==== Sys2Proof/Tests/Slice0.lean ====
section
/-! SUPPORT. Tests. Expected values are those of 95_test_vectors.md (F1 to F8, P1 to P4) and of the examples in the rules;
where a row below names neither, the value was worked out by hand from the rule named. The `witness_` theorems show, for each
statement with hypotheses, a state and operands that meet all of them. -/

namespace Sys2Proof.Machine

set_option Elab.async false

/-! ## Small states -/

/-- MAX_INFO = 4 and BUF_SIZE = 18, the parameters of F8. -/
def small (scope : FcsScope) : Params := { maxInfo := 4, bufSize := 18, fcsScope := scope }

/-- A state with the given frame in FR. -/
def withFrame (scope : FcsScope) (address control : Byte) (info : List Byte) : State :=
  { State.resetWith (small scope) with fr := Frame.ofInfo address control info 4 }

/-- A state with the given bytes at the start of BUF. -/
def withBuf (scope : FcsScope) (bytes : List Byte) : State :=
  let s := State.resetWith (small scope)
  { s with buf := s.buf.writeList 0 bytes }

/-- The state an outcome answers, the state after reset if it answers none. -/
def nextOf : Host.Outcome State Fault Refusal → State
  | .next t => t
  | .fault _ => State.reset
  | .refused _ => State.reset

/-- The response of a command. -/
def respOf (i : Instr) (s : State) : Option Response := (nextOf (exec i s)).response

/-- OK with a value. -/
def okWith (v : Word) : Option Response := some { status := .ok, value := v }

/-- An error with value 0. -/
def errWith (e : Status) : Option Response := some { status := e, value := 0 }

/-- The frame of vector 1, and its wire bytes. -/
def vector1 (scope : FcsScope) : State := withFrame scope 0x03 0x51 [4, 5, 6, 7]
def wire1 : List Byte := [0x7E, 0x03, 0x51, 0x04, 0x05, 0x06, 0x07, 0xEE, 0xEA, 0x7E]

/-- The frame of vector 2, its wire bytes under LOGICAL, and those the source prints (WRITTEN). -/
def vector2 (scope : FcsScope) : State := withFrame scope 0x7E 0xCD [0x7E, 0x7E, 0x7E, 0x7E]
def wire2 : List Byte :=
  [0x7E, 0x7D, 0x5E, 0xCD, 0x7D, 0x5E, 0x7D, 0x5E, 0x7D, 0x5E, 0x7D, 0x5E, 0xA8, 0xC6, 0x7E]
def wire2Printed : List Byte :=
  [0x7E, 0x7D, 0x5E, 0xCD, 0x7D, 0x5E, 0x7D, 0x5E, 0x7D, 0x5E, 0x7D, 0x5E, 0x50, 0xFF, 0x7E]

/-- The frame of P3, whose FCS 0x2D7E has an escaped low byte. -/
def escapedFcs : State := withFrame .logical 0x02 0x01 []

/-! ## Well-formedness: the checks on the parameters refuse what R6 and R7 exclude -/

theorem test_default_params_valid : Params.default.Valid := by decide

theorem test_small_params_valid : (small .written).Valid := by decide

theorem test_max_info_256_refused : ¬ Params.Valid { maxInfo := 256, bufSize := 522, fcsScope := .logical } := by decide

theorem test_buf_size_below_refused : ¬ Params.Valid { maxInfo := 4, bufSize := 17, fcsScope := .logical } := by decide

theorem test_buf_size_65536_refused : ¬ Params.Valid { maxInfo := 4, bufSize := 65536, fcsScope := .logical } := by decide

theorem test_info_len_above_max_refused :
    ¬ State.Inv { State.resetWith (small .logical) with fr := { Frame.zero 4 with infoLen := 5 } } := by decide +kernel

theorem test_short_info_refused :
    ¬ State.Inv { State.resetWith (small .logical) with fr := Frame.zero 3 } := by decide +kernel

theorem test_unsorted_buf_refused :
    ¬ State.Inv { State.resetWith (small .logical) with buf := { cells := [(1, 0), (0, 0)], unwritten := 0 } } := by
  decide +kernel

theorem test_buf_index_18_refused :
    ¬ State.Inv { State.resetWith (small .logical) with buf := { cells := [(18, 0)], unwritten := 0 } } := by
  decide +kernel

/-! ## Decoding: a word for every constructor, written out from R70 to R73 (the words of F8, P1 to P4 where they have one) -/

theorem test_decode_nop : decode 0x00000000 = .ok .nop := by rfl
theorem test_decode_nop_other_bits : decode 0xFFFFFF00 = .ok .nop := by rfl
theorem test_decode_wrAddr : decode 0x00000301 = .ok (.wrAddr 0x03) := by rfl
theorem test_decode_wrCtrl : decode 0x00005102 = .ok (.wrCtrl 0x51) := by rfl
theorem test_decode_wrLen : decode 0x00000403 = .ok (.wrLen 4) := by rfl
theorem test_decode_wrInfo : decode 0x00AA0304 = .ok (.wrInfo 3 0xAA) := by rfl
theorem test_decode_rdAddr : decode 0x00000005 = .ok .rdAddr := by rfl
theorem test_decode_rdCtrl : decode 0x00000006 = .ok .rdCtrl := by rfl
theorem test_decode_rdLen : decode 0x00000007 = .ok .rdLen := by rfl
theorem test_decode_rdInfo : decode 0x00000308 = .ok (.rdInfo 3) := by rfl
theorem test_decode_clrFrame : decode 0x00000009 = .ok .clrFrame := by rfl
theorem test_decode_wrBuf : decode 0x1100120A = .ok (.wrBuf 18 0x11) := by rfl
theorem test_decode_rdBuf : decode 0x0000110B = .ok (.rdBuf 17) := by rfl
theorem test_decode_stuff : decode 0x00017D10 = .ok (.stuff 0x7D 1) := by rfl
theorem test_decode_unstuff : decode 0x025E7D11 = .ok (.unstuff 0x7D 0x5E 2) := by rfl
theorem test_decode_buildI : decode 0x02010020 = .ok (.buildI 0 1 2) := by rfl
theorem test_decode_buildS : decode 0x03010221 = .ok (.buildS 2 1 3) := by rfl
theorem test_decode_buildU : decode 0x00010122 = .ok (.buildU 1 1) := by rfl
theorem test_decode_ctrlParse : decode 0x0000CD23 = .ok (.ctrlParse 0xCD) := by rfl
theorem test_decode_crcBuf : decode 0x00001330 = .ok (.crcBuf 19) := by rfl
theorem test_decode_encode : decode 0x00020940 = .ok (.encode 521) := by rfl
theorem test_decode_decode : decode 0x00000F41 = .ok (.decode 15) := by rfl
theorem test_decode_undefined_0C : decode 0x0000000C = .error (.undefinedOpcode 0x0C) := by rfl
theorem test_decode_undefined_FF : decode 0x000000FF = .error (.undefinedOpcode 0xFF) := by rfl
theorem test_encode_buildI : encode (.buildI 0 1 2) = 0x02010020 := by decide +kernel
theorem test_encode_wrBuf : encode (.wrBuf 17 0x11) = 0x1100110A := by decide +kernel
theorem test_tableWord_short : decodeTableWord 8 0x41 = some (.decode 0) := by decide +kernel

/-! ## The written form (R78, R79) -/

theorem test_assemble_buildI : assembleWords "BUILD_I 0, 1, 2 ; the example of R78".toList = some [0x02010020] := by
  decide +kernel

theorem test_assemble_names :
    assembleWords "BUILD_S RNR, 1, 3".toList = some [0x03010221]
      ∧ assembleWords "BUILD_U SABM, 1".toList = some [0x00010122] := by decide +kernel

theorem test_assemble_frame :
    assembleWords "FRAME 0x03, 0x51, [4, 5]".toList
      = some [0x00000009, 0x00000301, 0x00005102, 0x00040004, 0x00050104, 0x00000203] := by decide +kernel

theorem test_assemble_bufload : assembleWords "BUFLOAD [0x7E, 0x7D]".toList = some [0x7E00000A, 0x7D00010A] := by
  decide +kernel

theorem test_assemble_out_of_range : assembleWords "WR_ADDR 256".toList = none := by decide +kernel

/-! ## Host access commands (F8) -/

theorem test_nop : respOf .nop (vector1 .logical) = okWith 0 := by decide +kernel

theorem test_wrAddr : (nextOf (exec (.wrAddr 0x7E) (vector1 .logical))).fr
    = { (vector1 .logical).fr with address := 0x7E } := by decide +kernel

theorem test_wrCtrl : (nextOf (exec (.wrCtrl 0x07) (vector1 .logical))).fr
    = { (vector1 .logical).fr with control := 0x07 } := by decide +kernel

theorem test_wrLen : (nextOf (exec (.wrLen 2) (vector1 .logical))).fr
    = { (vector1 .logical).fr with infoLen := 2 } := by decide +kernel

theorem test_wrLen_bound : exec (.wrLen 5) (vector1 .logical)
    = .next ((vector1 .logical).answerError .invalidArgument) := by rfl

theorem test_wrInfo : (nextOf (exec (.wrInfo 3 0xAA) (vector1 .logical))).fr.info = [4, 5, 6, 0xAA] := by decide +kernel

theorem test_wrInfo_bound : respOf (.wrInfo 4 0xAA) (vector1 .logical) = errWith .invalidArgument := by decide +kernel

theorem test_rdAddr : respOf .rdAddr (vector2 .logical) = okWith 0x7E := by decide +kernel

theorem test_rdCtrl : respOf .rdCtrl (vector2 .logical) = okWith 0xCD := by decide +kernel

theorem test_rdLen : respOf .rdLen (vector2 .logical) = okWith 4 := by decide +kernel

theorem test_rdInfo : respOf (.rdInfo 3) (vector1 .logical) = okWith 0x07 := by decide +kernel

theorem test_rdInfo_bound : respOf (.rdInfo 4) (vector1 .logical) = errWith .invalidArgument := by decide +kernel

theorem test_clrFrame : (nextOf (exec .clrFrame (vector1 .logical))).fr
    = { address := 0, control := 0, infoLen := 0, info := [0, 0, 0, 0] } := by decide +kernel

theorem test_wrBuf : (nextOf (exec (.wrBuf 17 0x11) (withBuf .logical [1, 2]))).buf.cells
    = [(0, 1), (1, 2), (17, 0x11)] := by decide +kernel

theorem test_wrBuf_bound : respOf (.wrBuf 18 0x11) (withBuf .logical []) = errWith .invalidArgument := by decide +kernel

theorem test_rdBuf : respOf (.rdBuf 7) (withBuf .logical wire1) = okWith 0xEE := by decide +kernel

theorem test_rdBuf_drawn : respOf (.rdBuf 17) (withBuf .logical wire1) = okWith (zext32 (drawByte 17)) := by rfl

/-! ## Stuffing (F1, F2) -/

theorem test_stuff_flag : respOf (.stuff 0x7E 2) State.reset = okWith 0x005E7D02 := by decide +kernel

theorem test_stuff_room : respOf (.stuff 0x7D 1) State.reset = errWith .bufferTooSmall := by decide +kernel

theorem test_unstuff_pair : respOf (.unstuff 0x7D 0x5E 2) State.reset = okWith 0x0000027E := by decide +kernel

theorem test_unstuff_flag_is_data : respOf (.unstuff 0x7E 0x5E 255) State.reset = okWith 0x0000017E := by decide +kernel

/-! ## Control field (F3, F4) -/

theorem test_buildI_vector2 : respOf (.buildI 0x7E 0x7E 0x7E) State.reset = okWith 0xCD := by decide +kernel

theorem test_buildI_control : (nextOf (exec (.buildI 0 1 2) (vector2 .logical))).fr
    = { (vector2 .logical).fr with control := 0x51 } := by decide +kernel

theorem test_buildS : respOf (.buildS 3 1 7) State.reset = okWith 0xFD := by decide +kernel

theorem test_buildS_truncates : respOf (.buildS 4 0 0) State.reset = okWith 0x01 := by decide +kernel

theorem test_buildU_sabm : respOf (.buildU 1 1) State.reset = okWith 0x9F := by decide +kernel

theorem test_buildU_unknown : exec (.buildU 7 1) (vector1 .logical)
    = .next ((vector1 .logical).answerError .unknownModifierCode) := by rfl

theorem test_ctrlParse_U : respOf (.ctrlParse 0x8F) State.reset = okWith 0x01040302 := by decide +kernel

theorem test_ctrlParse_S : respOf (.ctrlParse 0xCD) State.reset = okWith 0xFF060301 := by decide +kernel

theorem test_named_codes : respOf (.buildU UCode.frmr.code 0) State.reset = okWith 0x2B
    ∧ respOf (.buildS SCode.rnr.code 1 3) State.reset = okWith 0x79 := by decide +kernel

/-! ## Checksum (R158, F5) -/

theorem test_crc_check_value :
    respOf (.crcBuf 9) (withBuf .logical [0x31, 0x32, 0x33, 0x34, 0x35, 0x36, 0x37, 0x38, 0x39]) = okWith 0x906E := by
  decide +kernel

theorem test_crc_bound : respOf (.crcBuf 19) (withBuf .logical []) = errWith .invalidArgument := by decide +kernel

theorem test_crc16 : crc16 [] = 0 ∧ crc16 [0x00] = 0xF078 ∧ crc16 [0xFF] = 0xFF00 ∧ crc16 [0x03, 0x51] = 0x6623 := by
  decide +kernel

theorem test_crc16_reflected : crc16Reflected [0x7E, 0xCD, 0x7E, 0x7E, 0x7E, 0x7E] = 0xA8C6 := by decide +kernel

/-! ## ENCODE (F6) and its per-byte form -/

theorem test_encode_vector1 : (nextOf (exec (.encode 10) (vector1 .logical))).buf.readList 0 10 = wire1
    ∧ respOf (.encode 10) (vector1 .logical) = okWith 10 := by decide +kernel

theorem test_encode_vector2_printed : (nextOf (exec (.encode 15) (vector2 .written))).buf.readList 0 15 = wire2Printed := by
  decide +kernel

theorem test_encode_by_bytes :
    ((vector2 .logical).encodeByBytes 15).map (fun t => (t.buf.readList 0 15, t.response)) = some (wire2, okWith 15) := by
  decide +kernel

/-! ## DECODE (F7) and its per-byte form -/

theorem test_decode_vector2_written : (nextOf (exec (.decode 15) (withBuf .written wire2Printed))).fr = (vector2 .written).fr := by
  decide +kernel

theorem test_decode_checksum_before_stop_flag :
    respOf (.decode 6) (withBuf .logical [0x7E, 0x03, 0x51, 0x66, 0x24, 0x00]) = errWith .checksumMismatch := by decide +kernel

theorem test_decode_by_bytes :
    ((withBuf .written wire2Printed).decodeByBytes 15).map (fun t => (t.fr, t.response))
      = some ((vector2 .written).fr, okWith 4) := by decide +kernel

theorem test_decode_by_bytes_fails :
    ((withBuf .logical (wire1.take 9)).decodeByBytes 9).map State.response = some (errWith .checksumMismatch) := by
  decide +kernel

/-! ## The status codes (R77) -/

theorem test_status_codes : [Status.ok, .invalidArgument, .bufferTooSmall, .malformedStream, .checksumMismatch,
    .incompleteFrame, .unknownModifierCode].map Status.code = [0, 1, 2, 3, 4, 5, 6] := by decide

/-! ## Steps -/

theorem test_step_word : step (State.reset.withFetchWord 32 0x02010020) = exec (.buildI 0 1 2) State.reset := by rfl

theorem test_step_undefined : step (State.reset.withFetchWord 32 0x000000FF)
    = .next (State.reset.answerError .invalidArgument) := by rfl

theorem test_step_reset : (nextOf (step { vector1 .logical with input := [.reset, .command 0] })).fr = Frame.zero 4 := by
  decide +kernel

/-! ## Witnesses: states and operands that meet the hypotheses of the statements -/

theorem witness_inv : (vector1 .logical).Inv ∧ (vector2 .written).Inv ∧ (withBuf .logical wire1).Inv ∧ escapedFcs.Inv := by
  decide +kernel

/-- WrLenWritesInfoLenUpToMaxInfo, at the bound, and with MAX_INFO = 255 where every length is accepted. -/
theorem witness_wrLen : (small .logical).maxInfo < (5 : Byte).toNat ∧ (4 : Byte).toNat ≤ (small .logical).maxInfo
    ∧ (255 : Byte).toNat ≤ State.reset.params.maxInfo := by decide

/-- WrInfoWritesOneInfoByte and RdInfoGivesTheStoredByte, at the bound, also with MAX_INFO = 255. -/
theorem witness_info_index : (vector1 .logical).Inv
    ∧ (vector1 .logical).params.maxInfo ≤ (4 : Byte).toNat ∧ (3 : Byte).toNat < (vector1 .logical).params.maxInfo
    ∧ State.reset.params.maxInfo ≤ (255 : Byte).toNat := by decide +kernel

/-- FieldReadsGiveTheField: a DECODE that fails (its RD_CTRL clause). -/
theorem witness_decode_failed : ∃ t, exec (.decode 9) (withBuf .logical wire1) = .next t
    ∧ (9 : Half).toNat ≤ (withBuf .logical wire1).params.bufSize ∧ t.status? ≠ some .ok :=
  ⟨_, rfl, by decide +kernel⟩

/-- RdInfoGivesTheStoredByte: after a successful DECODE, an index at FR.info_len and below MAX_INFO. -/
theorem witness_rdInfo_after_decode : ∃ t, exec (.decode 6) (withBuf .logical [0x7E, 0x03, 0x51, 0x66, 0x23, 0x7E]) = .next t
    ∧ (withBuf .logical [0x7E, 0x03, 0x51, 0x66, 0x23, 0x7E]).Inv
    ∧ t.status? = some .ok ∧ t.fr.infoLen.toNat ≤ (0 : Byte).toNat ∧ (0 : Byte).toNat < (small .logical).maxInfo :=
  ⟨_, rfl, by decide +kernel⟩

/-- WrBufWritesOneByte and RdBufGivesTheByte, at the bound. -/
theorem witness_buf_index : (small .logical).bufSize ≤ (18 : Half).toNat ∧ (17 : Half).toNat < (small .logical).bufSize := by
  decide

/-- RdBufGivesTheByte and OnlyNamedCommandsWriteTheRest: an ENCODE that fails, and an index below its capacity. -/
theorem witness_encode_failed : ∃ t, exec (.encode 9) (vector1 .logical) = .next t ∧ t.status? = some .bufferTooSmall
    ∧ (8 : Half).toNat < (9 : Half).toNat :=
  ⟨_, rfl, by decide +kernel⟩

/-- StuffGivesTheWireBytes: its four clauses. -/
theorem witness_stuff : ((0x7E : Byte) = 0x7E ∨ (0x7E : Byte) = 0x7D) ∧ (1 : Byte).toNat < 2 ∧ 2 ≤ (2 : Byte).toNat
    ∧ Unescaped 0x5E ∧ (0 : Byte) = 0 ∧ (1 : Byte) ≠ 0 := by decide

/-- UnstuffDecodesOneUnit: its four clauses, with avail 1, 2 and 255. -/
theorem witness_unstuff : (0x7D : Byte) = 0x7D ∧ (0x7E : Byte) ≠ 0x7D ∧ (1 : Byte) ≠ 0 ∧ 2 ≤ (2 : Byte).toNat
    ∧ 2 ≤ (255 : Byte).toNat := by decide

/-- BuildUPacksTheModifier and OtherErrorsComeFromTheirCommands, at the bound. -/
theorem witness_buildU : 6 < (7 : Byte).toNat ∧ (6 : Byte).toNat ≤ 6 := by decide

/-- CtrlParseUnpacksEveryByte: an I-, an S- and two U-frame bytes, one of them with a pair outside the table (0x07). -/
theorem witness_ctrlParse : (0x00 : Byte).extractLsb' 0 1 = 0 ∧ (0x51 : Byte).extractLsb' 0 2 = 1
    ∧ (0x8F : Byte).extractLsb' 0 2 = 3
    ∧ uPairs[1]? = some ((0x8F : Byte).extractLsb' 2 2, (0x8F : Byte).extractLsb' 5 3)
    ∧ (0x07 : Byte).extractLsb' 0 2 = 3
    ∧ ((0x07 : Byte).extractLsb' 2 2, (0x07 : Byte).extractLsb' 5 3) ∉ uPairs := by decide

/-- BuiltControlBytesParse: an even ns, an odd ns, and a ucode of the table. -/
theorem witness_built : (0 : Byte).extractLsb' 0 1 = 0 ∧ (7 : Byte).extractLsb' 0 1 = 1 ∧ (0 : Byte).toNat ≤ 6 := by decide

/-- CrcBufHashesTheBuffer, at the bound, and with a count of 0. -/
theorem witness_crcBuf : (small .logical).bufSize < (19 : Half).toNat ∧ (18 : Half).toNat ≤ (small .logical).bufSize
    ∧ (0 : Half).toNat ≤ (small .logical).bufSize := by decide

/-- EncodedLengthIsK: a frame whose stuffed bytes are all escaped (the 28-byte frame of F6). -/
theorem witness_all_escaped :
    let s : State := { State.resetWith { maxInfo := 9, bufSize := 28, fcsScope := .logical } with
      fr := Frame.ofInfo 0x7E 0x7E [0x7E, 0x7D, 0x7D, 0x7E, 0x7E, 0x7E, 0x7D, 0x7E, 0x7E] 9 }
    s.Inv ∧ ∀ v ∈ stuffedContent s.params.fcsScope s.fr, ¬ Unescaped v := by decide +kernel

/-- EncodeSucceedsExactlyFromK, EncodeWritesTheWireFrame, EncodeFailureDrawsTheCapacity and EncodedFrameHasNoInnerFlag: the
capacities K and K - 1, under both scopes. -/
theorem witness_encode : (vector1 .logical).Inv ∧ (vector1 .logical).encodedLength ≤ (10 : Half).toNat
    ∧ (10 : Half).toNat ≤ (vector1 .logical).params.bufSize ∧ (9 : Half).toNat < (vector1 .logical).encodedLength
    ∧ (vector2 .written).Inv ∧ (vector2 .written).encodedLength ≤ (15 : Half).toNat
    ∧ (14 : Half).toNat < (vector2 .written).encodedLength := by decide +kernel

/-- EncodeDependsOnTheFrameAlone: two states with other BUF contents and another info byte beyond info_len. -/
theorem witness_encode_depends :
    let s := withFrame .logical 0x03 0x51 [4]
    let s' : State := { withBuf .logical [9] with fr := { s.fr with info := [4, 1, 2, 3] } }
    s.params = s'.params ∧ s.fr.address = s'.fr.address ∧ s.fr.control = s'.fr.control ∧ s.fr.infoLen = s'.fr.infoLen
      ∧ s.fr.infoPrefix = s'.fr.infoPrefix ∧ s.fr ≠ s'.fr ∧ s.buf ≠ s'.buf
      ∧ respOf (.encode 7) s = okWith 7 := by decide +kernel

/-- DecodeCompletesOnFrames and DecodeAcceptsOnlyFrames: D16, whose info byte is a raw flag, under LOGICAL. -/
theorem witness_decode_completes :
    let s := withBuf .logical [0x7E, 0x03, 0x51, 0x7E, 0x79, 0x7E, 0x7E]
    s.Inv ∧ (7 : Half).toNat ≤ s.params.bufSize
      ∧ s.buf.readList 0 7 = 0x7E :: ([0x03, 0x51, 0x7E] ++ [0x79, 0x7E, 0x7E])
      ∧ unstuffAll [0x03, 0x51, 0x7E] = some (0x03 :: 0x51 :: [0x7E])
      ∧ crc16 (0x03 :: 0x51 :: [0x7E]) = joinBytes 0x79 0x7E
      ∧ respOf (.decode 7) s = okWith 1 := by decide +kernel

/-- DecodeCompletesOnFrames under WRITTEN: the printed vector 2, MAX_INFO reached. -/
theorem witness_decode_completes_written :
    let s := withBuf .written wire2Printed
    let body : List Byte := [0x7D, 0x5E, 0xCD, 0x7D, 0x5E, 0x7D, 0x5E, 0x7D, 0x5E, 0x7D, 0x5E]
    s.Inv ∧ s.buf.readList 0 15 = 0x7E :: (body ++ [0x50, 0xFF, 0x7E])
      ∧ unstuffAll body = some (0x7E :: 0xCD :: [0x7E, 0x7E, 0x7E, 0x7E])
      ∧ [0x7E, 0x7E, 0x7E, (0x7E : Byte)].length ≤ s.params.maxInfo ∧ crc16 body = joinBytes 0x50 0xFF := by decide +kernel

/-- DecodeChecksTheStartFlag: BUF[0] is not a flag. -/
theorem witness_start_flag : (withBuf .logical [0x00]).buf.read 0 ≠ 0x7E ∧ 0 < (1 : Half).toNat
    ∧ (1 : Half).toNat ≤ (withBuf .logical [0x00]).params.bufSize := by decide +kernel

/-- DecodeAddressAndControlErrors: D5, D10 and D11 (no unit, and one unit). -/
theorem witness_address_control :
    (withBuf .logical [0x7E]).buf.readList 0 (1 : Half).toNat = 0x7E :: ([] : List Byte)
      ∧ (withBuf .logical [0x7E, 0x7D]).buf.readList 0 (2 : Half).toNat = 0x7E :: ([] ++ [0x7D])
      ∧ (∃ v, unstuff [0x03] = .ok (v, [(0x03 : Byte)].length))
      ∧ (withBuf .logical [0x7E, 0x03, 0x7D]).buf.readList 0 (3 : Half).toNat = 0x7E :: ([0x03] ++ [0x7D]) :=
  ⟨by decide +kernel, by decide +kernel, ⟨_, rfl⟩, by decide +kernel⟩

/-- DecodeFcsUnitErrors: D12 (the escape after one unit), and an input that ends after the FCS high byte. -/
theorem witness_fcs_units :
    unstuffAll [0x03, 0x51] = some (0x03 :: 0x51 :: []) ∧ EntersFcs [0x03, 0x51] [] [0x66]
      ∧ (∃ v, unstuff [0x66] = .ok (v, [(0x66 : Byte)].length))
      ∧ (withBuf .logical [0x7E, 0x03, 0x51, 0x66]).buf.readList 0 (4 : Half).toNat = 0x7E :: ([0x03, 0x51] ++ [0x66])
      ∧ EntersFcs [0x03, 0x51] [] ([0x66] ++ [0x7D])
      ∧ (withBuf .logical [0x7E, 0x03, 0x51, 0x66, 0x7D]).buf.readList 0 (5 : Half).toNat
        = 0x7E :: ([0x03, 0x51] ++ ([0x66] ++ [0x7D])) :=
  ⟨by decide +kernel, ⟨by decide, .inl rfl⟩, ⟨_, rfl⟩, by decide +kernel, ⟨by decide, .inl rfl⟩, by decide +kernel⟩

/-- DecodeFcsUnitErrors after an info byte of one unit: an escape pair and a dangling escape are the last three bytes. -/
theorem witness_fcs_units_info :
    unstuffAll [0x03, 0x51, 0x04] = some (0x03 :: 0x51 :: [0x04])
      ∧ EntersFcs [0x03, 0x51, 0x04] [0x04] ([0x7D, 0x5E] ++ [0x7D])
      ∧ (∃ v, unstuff [0x7D, 0x5E] = .ok (v, [(0x7D : Byte), 0x5E].length))
      ∧ (withBuf .logical [0x7E, 0x03, 0x51, 0x04, 0x7D, 0x5E, 0x7D]).buf.readList 0 (7 : Half).toNat
        = 0x7E :: ([0x03, 0x51, 0x04] ++ ([0x7D, 0x5E] ++ [0x7D])) :=
  ⟨by decide +kernel, ⟨by decide, .inr (.inl rfl)⟩, ⟨_, rfl⟩, by decide +kernel⟩

/-- DecodeFcsUnitErrors after an info byte that is an escape pair: the last two bytes are an escape pair, and a byte and a
dangling escape. -/
theorem witness_fcs_units_pair :
    unstuffAll [0x03, 0x51, 0x7D, 0x5E] = some (0x03 :: 0x51 :: [0x7E])
      ∧ EntersFcs [0x03, 0x51, 0x7D, 0x5E] [0x7E] [0x7D, 0x11] ∧ (∃ v, unstuff [0x7D, 0x11] = .ok (v, [(0x7D : Byte), 0x11].length))
      ∧ (withBuf .logical [0x7E, 0x03, 0x51, 0x7D, 0x5E, 0x7D, 0x11]).buf.readList 0 (7 : Half).toNat
        = 0x7E :: ([0x03, 0x51, 0x7D, 0x5E] ++ [0x7D, 0x11])
      ∧ EntersFcs [0x03, 0x51, 0x7D, 0x5E] [0x7E] ([0x11] ++ [0x7D])
      ∧ (withBuf .logical [0x7E, 0x03, 0x51, 0x7D, 0x5E, 0x11, 0x7D]).buf.readList 0 (7 : Half).toNat
        = 0x7E :: ([0x03, 0x51, 0x7D, 0x5E] ++ ([0x11] ++ [0x7D])) :=
  ⟨by decide +kernel, ⟨by decide, .inr (.inr ⟨rfl, [0x03, 0x51], 0x5E, rfl, by decide +kernel⟩)⟩, ⟨_, rfl⟩, by decide +kernel,
    ⟨by decide, .inr (.inr ⟨rfl, [0x03, 0x51], 0x5E, rfl, by decide +kernel⟩)⟩, by decide +kernel⟩

/-- DecodeInfoOverflowIsMalformed: four info bytes, MAX_INFO of them, and an escape pair with exactly 4 bytes left. -/
theorem witness_overflow :
    let s := withBuf .logical [0x7E, 1, 2, 3, 4, 5, 6, 0x7D, 0x5E, 8, 9]
    s.buf.readList 0 (11 : Half).toNat = 0x7E :: ([1, 2, 3, 4, 5, 6] ++ [0x7D, 0x5E, 8, 9])
      ∧ unstuffAll [1, 2, 3, 4, 5, 6] = some (1 :: 2 :: [3, 4, 5, 6]) ∧ [3, 4, 5, (6 : Byte)].length = s.params.maxInfo
      ∧ 3 < [0x7D, 0x5E, 8, (9 : Byte)].length := by decide +kernel

/-- DecodeChecksTheSumBeforeTheStopFlag: D9 and D7. -/
theorem witness_sum_before_stop :
    (withBuf .logical [0x7E, 0x03, 0x51, 0x66, 0x24, 0x00]).buf.readList 0 (6 : Half).toNat
        = 0x7E :: ([0x03, 0x51] ++ ([0x66] ++ ([0x24] ++ [0x00])))
      ∧ (withBuf .logical [0x7E, 0x03, 0x51, 0x66, 0x23, 0x00]).buf.readList 0 (6 : Half).toNat
        = 0x7E :: ([0x03, 0x51] ++ ([0x66] ++ ([0x23] ++ [0x00])))
      ∧ unstuffAll [0x03, 0x51] = some (0x03 :: 0x51 :: [])
      ∧ decodeFcs .logical 0x03 0x51 [] [0x03, 0x51] ≠ joinBytes 0x66 0x24
      ∧ decodeFcs .logical 0x03 0x51 [] [0x03, 0x51] = joinBytes 0x66 0x23 ∧ (0x00 : Byte) ≠ 0x7E := by decide +kernel

theorem witness_sum_before_stop_units : EntersFcs [0x03, 0x51] [] [0x66, 0x23, 0x00] ∧ unstuff [0x66] = .ok (0x66, 1)
    ∧ unstuff [0x23] = .ok (0x23, 1) ∧ unstuff [0x24] = .ok (0x24, 1) :=
  ⟨⟨by decide, .inl rfl⟩, rfl, rfl, rfl⟩

/-- DecodeChecksTheSumBeforeTheStopFlag with nothing left for the stop flag: vector 2 cut to 14 bytes (F7, truncation) matches,
and with its last byte changed does not; each FCS byte is one unit after an info byte that is an escape pair. -/
theorem witness_sum_no_stop :
    let body : List Byte := [0x7D, 0x5E, 0xCD, 0x7D, 0x5E, 0x7D, 0x5E, 0x7D, 0x5E, 0x7D, 0x5E]
    (withBuf .logical (wire2.take 14)).buf.readList 0 (14 : Half).toNat = 0x7E :: (body ++ ([0xA8] ++ ([0xC6] ++ [])))
      ∧ unstuffAll body = some (0x7E :: 0xCD :: [0x7E, 0x7E, 0x7E, 0x7E])
      ∧ decodeFcs .logical 0x7E 0xCD [0x7E, 0x7E, 0x7E, 0x7E] body = joinBytes 0xA8 0xC6
      ∧ decodeFcs .logical 0x7E 0xCD [0x7E, 0x7E, 0x7E, 0x7E] body ≠ joinBytes 0xA8 0xC7
      ∧ respOf (.decode 14) (withBuf .logical (wire2.take 14)) = errWith .incompleteFrame := by decide +kernel

theorem witness_sum_no_stop_units :
    EntersFcs [0x7D, 0x5E, 0xCD, 0x7D, 0x5E, 0x7D, 0x5E, 0x7D, 0x5E, 0x7D, 0x5E] [0x7E, 0x7E, 0x7E, 0x7E] [0xA8, 0xC6]
      ∧ unstuff [0xA8] = .ok (0xA8, 1) ∧ unstuff [0xC6] = .ok (0xC6, 1) :=
  ⟨⟨by decide, .inr (.inr ⟨rfl, [0x7D, 0x5E, 0xCD, 0x7D, 0x5E, 0x7D, 0x5E, 0x7D, 0x5E], 0x5E, rfl, by decide +kernel⟩)⟩, rfl, rfl⟩

/-- DecodeChecksTheSumBeforeTheStopFlag with an escaped FCS high byte and nothing left: the units `7D 41` and `00` are the FCS,
0x6100, where [03 51] has 0x6623 (R158). -/
theorem witness_sum_escaped_unit :
    (withBuf .logical [0x7E, 0x03, 0x51, 0x7D, 0x41, 0x00]).buf.readList 0 (6 : Half).toNat
        = 0x7E :: ([0x03, 0x51] ++ ([0x7D, 0x41] ++ ([0x00] ++ [])))
      ∧ decodeFcs .logical 0x03 0x51 [] [0x03, 0x51] ≠ joinBytes 0x61 0x00
      ∧ respOf (.decode 6) (withBuf .logical [0x7E, 0x03, 0x51, 0x7D, 0x41, 0x00]) = errWith .checksumMismatch := by
  decide +kernel

theorem witness_sum_escaped_unit_units : EntersFcs [0x03, 0x51] [] [0x7D, 0x41, 0x00] ∧ unstuff [0x7D, 0x41] = .ok (0x61, 2)
    ∧ unstuff [0x00] = .ok (0x00, 1) :=
  ⟨⟨by decide, .inl rfl⟩, rfl, rfl⟩

/-- DecodeDependsOnItsInputAlone: another FR, and BUF contents that differ from index 10 on. -/
theorem witness_decode_depends :
    let s := withBuf .logical wire1
    let s' : State := { withBuf .logical (wire1 ++ [9]) with fr := (vector2 .logical).fr }
    s.params = s'.params ∧ s.fr ≠ s'.fr ∧ s.buf ≠ s'.buf ∧ (∀ i, i < (10 : Half).toNat → s.buf.read i = s'.buf.read i)
      ∧ respOf (.decode 10) s = okWith 4 := by decide +kernel

/-- DecodeGivesBackTheEncodedFrame. -/
theorem witness_round_trip : (vector1 .logical).Inv ∧ (10 : Half).toNat ≤ (vector1 .logical).params.bufSize
    ∧ (10 : Half).toNat = (vector1 .logical).encodedLength ∧ Unescaped (vector1 .logical).fcsBytes.1
    ∧ Unescaped (vector1 .logical).fcsBytes.2 := by decide +kernel

/-- DecodeRejectsAnEscapedFcs, below MAX_INFO (ChecksumMismatch) and at MAX_INFO; and DecodeRejectsEveryStrictPrefix. No frame
meets the statement's IncompleteFrame branch: `escaped_fcs_never_matches`. -/
theorem witness_escaped_fcs : escapedFcs.Inv ∧ (7 : Half).toNat ≤ escapedFcs.params.bufSize
    ∧ (7 : Half).toNat = escapedFcs.encodedLength ∧ ¬ Unescaped escapedFcs.fcsBytes.2
    ∧ escapedFcs.fr.infoLen.toNat ≠ escapedFcs.params.maxInfo ∧ (6 : Half).toNat < escapedFcs.encodedLength := by
  decide +kernel

theorem witness_escaped_fcs_full :
    let s : State := { State.resetWith { maxInfo := 0, bufSize := 10, fcsScope := .written } with
      fr := Frame.ofInfo 0x02 0x01 [] 0 }
    s.Inv ∧ (7 : Half).toNat ≤ s.params.bufSize ∧ (7 : Half).toNat = s.encodedLength ∧ ¬ Unescaped s.fcsBytes.2
      ∧ s.fr.infoLen.toNat = s.params.maxInfo := by decide +kernel

/-- StepKeepsTheStateInvariant, ParametersNeverChange: a step from a state that meets State.Inv. -/
theorem witness_step : ∃ t, step ((vector1 .logical).withFetchWord 32 0x00000A40) = .next t
    ∧ ((vector1 .logical).withFetchWord 32 0x00000A40).Inv ∧ t.status? = some .ok :=
  ⟨_, rfl, by decide +kernel⟩

/-- InfoLenNeverPassesMaxInfo: a run from reset. -/
theorem witness_run : (small .logical).Valid ∧ ∃ t,
    core.run 1 { State.resetWith (small .logical) with input := [.command 0x00000403] } = .next t ∧ t.fr.infoLen = 4 :=
  ⟨by decide, _, rfl, by decide +kernel⟩

/-- InvalidArgumentHasExactlyTheseCauses and UndefinedOpcodesAnswerInvalidArgument: an undefined opcode, and ENCODE past BUF. -/
theorem witness_invalid : decode 0x0000000C = .error (.undefinedOpcode 0x0C)
    ∧ (State.reset.withFetchWord 32 0x0C).input = .command 0x0000000C :: []
    ∧ respOf (.encode 19) (vector1 .logical) = errWith .invalidArgument
    ∧ (vector1 .logical).params.bufSize < (19 : Half).toNat := ⟨rfl, by decide +kernel⟩

/-- BufferTooSmallHasExactlyTheseCauses and OtherErrorsComeFromTheirCommands: each error from a command. -/
theorem witness_errors : (vector1 .logical).Inv ∧ respOf (.encode 0) (vector1 .logical) = errWith .bufferTooSmall
    ∧ respOf (.stuff 0x41 0) (vector1 .logical) = errWith .bufferTooSmall
    ∧ respOf (.unstuff 0x7D 0 1) (vector1 .logical) = errWith .malformedStream
    ∧ respOf (.unstuff 0x7D 0 0) (vector1 .logical) = errWith .incompleteFrame
    ∧ respOf (.decode 6) (withBuf .logical [0x7E, 0x03, 0x51, 0x66, 0x24, 0x7E]) = errWith .checksumMismatch
    ∧ respOf (.buildU 255 0) (vector1 .logical) = errWith .unknownModifierCode := by decide +kernel

/-- UnreadBitsAreIgnored: two words of CTRL_PARSE that differ in unread bits. -/
theorem witness_unread_bits : decode 0xFFFFCD23 = .ok (.ctrlParse 0xCD)
    ∧ (0x0000CD23 : Word) &&& readMask (.ctrlParse 0xCD) = (0xFFFFCD23 : Word) &&& readMask (.ctrlParse 0xCD) :=
  ⟨rfl, by decide +kernel⟩

/-- StepRunsTheDecodedCommand, ResetZeroesTheFrameRegister, ResetDrawsEveryByteOfBuf and IdleBlockKeepsItsState: a command, a
reset and nothing as what comes next. -/
theorem witness_input : decode 0x09 = .ok .clrFrame ∧ (State.reset.withFetchWord 32 0x09).input = .command 0x00000009 :: []
    ∧ State.input { State.reset with input := [.reset] } = .reset :: [] ∧ State.reset.input = []
    ∧ 0 < State.reset.params.bufSize := ⟨rfl, by decide +kernel⟩

end Sys2Proof.Machine
end

section
/-! PROOFS. The statements about the state (10_state.md): what a command can update, the invariant that every step keeps, and
what the commands do not read. -/

namespace Sys2Proof.Machine

/-! ## A successful DECODE -/

/-- A bind that succeeds is its two parts succeeding. -/
theorem except_bind_eq_ok {ε α β : Type} {x : Except ε α} {f : α → Except ε β} {b : β} :
    x >>= f = .ok b ↔ ∃ a, x = .ok a ∧ f a = .ok b := by
  cases x <;> simp [bind, Except.bind]

/-- A run of DECODE that succeeds passes through every state, each at the input the one before has left (R191 to R202). -/
theorem decodeFrame_ok {p : Params} {input : List Byte} {f : Frame} (h : decodeFrame p input = .ok f) :
    ∃ r address r₁ control r₂ info r₃ hi r₄ lo r₅, decodeStart input = .ok r ∧ decodeByte r = .ok (address, r₁)
      ∧ decodeByte r₁ = .ok (control, r₂) ∧ decodeInfo p.maxInfo r₂.length [] r₂ = .ok (info, r₃)
      ∧ decodeByte r₃ = .ok (hi, r₄) ∧ decodeByte r₄ = .ok (lo, r₅)
      ∧ joinBytes hi lo = decodeFcs p.fcsScope address control info (r.take (r.length - r₃.length))
      ∧ decodeStop r₅ = .ok () ∧ f = Frame.ofInfo address control info p.maxInfo := by
  simp only [decodeFrame, except_bind_eq_ok] at h
  obtain ⟨r, hr, ⟨address, r₁⟩, haddress, ⟨control, r₂⟩, hcontrol, ⟨info, r₃⟩, hinfo, ⟨hi, r₄⟩, hhi, ⟨lo, r₅⟩, hlo, h⟩ := h
  dsimp only at hcontrol hinfo hhi hlo h
  split at h
  · cases h
  · rename_i hfcs
    obtain ⟨⟨⟩, hstop, hf⟩ := except_bind_eq_ok.mp h
    cases hf
    exact ⟨r, address, r₁, control, r₂, info, r₃, hi, r₄, lo, r₅, hr, haddress, hcontrol, hinfo, hhi, hlo,
      Decidable.not_not.mp hfcs, hstop, rfl⟩

/-- The frame a successful DECODE holds has at most MAX_INFO info bytes (R196, R197). -/
theorem decodeFrame_ok_ofInfo {p : Params} {input : List Byte} {f : Frame} (h : decodeFrame p input = .ok f) :
    ∃ address control info, info.length ≤ p.maxInfo ∧ f = Frame.ofInfo address control info p.maxInfo := by
  obtain ⟨_, address, _, control, _, info, _, _, _, _, _, -, -, -, hinfo, -, -, -, -, hf⟩ := decodeFrame_ok h
  exact ⟨address, control, info, decodeInfo_length_le (Nat.zero_le _) hinfo, hf⟩

section ofInfo
variable {info : List Byte} {maxInfo : Nat} (address control : Byte) (h : info.length ≤ maxInfo)
include h

theorem Frame.ofInfo_info_length : (Frame.ofInfo address control info maxInfo).info.length = maxInfo := by
  simp [Frame.ofInfo, h]

theorem Frame.ofInfo_infoLen_le : (Frame.ofInfo address control info maxInfo).infoLen.toNat ≤ maxInfo := by
  simp only [Frame.ofInfo, BitVec.toNat_ofNat]
  exact Nat.le_trans (Nat.mod_le _ _) h

end ofInfo

/-! ## What a command can update -/

/-- What a command can do to the state. Any command may give an answer and change nothing else; one that writes FR, BUF or the
working state writes what is its own (R23, R28, R50), under the test that lets it. -/
inductive Update : Instr → State → State → Prop
  | answer (i : Instr) (s : State) (st : Status) (v : Word) : Update i s (s.complete st v)
  | wrAddr (a : Byte) (s : State) : Update (.wrAddr a) s (State.complete { s with fr := { s.fr with address := a } } .ok 0)
  | wrCtrl (a : Byte) (s : State) : Update (.wrCtrl a) s (State.complete { s with fr := { s.fr with control := a } } .ok 0)
  | wrLen {a : Byte} {s : State} (h : a.toNat ≤ s.params.maxInfo) :
      Update (.wrLen a) s (State.complete { s with fr := { s.fr with infoLen := a } } .ok 0)
  | wrInfo {a : Byte} (b : Byte) {s : State} (h : a.toNat < s.params.maxInfo) :
      Update (.wrInfo a b) s (State.complete { s with fr := s.fr.setInfo a.toNat b } .ok 0)
  | clrFrame (s : State) : Update .clrFrame s (State.complete { s with fr := Frame.zero s.params.maxInfo } .ok 0)
  | wrBuf {n : Half} (c : Byte) {s : State} (h : n.toNat < s.params.bufSize) :
      Update (.wrBuf n c) s (State.complete { s with buf := s.buf.write n.toNat c } .ok 0)
  | buildI (a b c : Byte) (s : State) : Update (.buildI a b c) s (s.loadControl (iControl a b c))
  | buildS (a b c : Byte) (s : State) : Update (.buildS a b c) s (s.loadControl (sControl a b c))
  | buildU {a m1 m2 : Byte} (b : Byte) (s : State) (h : uTable[a.toNat]? = some (m1, m2)) :
      Update (.buildU a b) s (s.loadControl (uControl m1 m2 b))
  | crcBuf {n : Half} {s : State} (hn : n.toNat ≤ s.params.bufSize) :
      Update (.crcBuf n) s (s.drawCrc.complete .ok (zext32 (crc16 (s.buf.readList 0 n.toNat))))
  | encodeOk {n : Half} {s : State} (hn : n.toNat ≤ s.params.bufSize)
      (hfit : (wireFrame s.params.fcsScope s.fr).length ≤ n.toNat) :
      Update (.encode n) s
        (s.encodeOk (s.buf.writeList 0 (wireFrame s.params.fcsScope s.fr)) (wireFrame s.params.fcsScope s.fr).length)
  | encodeFailed {n : Half} {s : State} (hn : n.toNat ≤ s.params.bufSize)
      (hfull : n.toNat < (wireFrame s.params.fcsScope s.fr).length) :
      Update (.encode n) s (s.encodeFailed n.toNat .bufferTooSmall)
  | decodeOk {n : Half} {s : State} {f : Frame} (hn : n.toNat ≤ s.params.bufSize)
      (h : decodeFrame s.params (s.buf.readList 0 n.toNat) = .ok f) : Update (.decode n) s (s.decodeOk f)
  | decodeFailed {n : Half} {s : State} {e : Status} (hn : n.toNat ≤ s.params.bufSize)
      (h : decodeFrame s.params (s.buf.readList 0 n.toNat) = .error e) : Update (.decode n) s (s.decodeFailed e)

theorem execEncode_refused {n : Half} {s : State} (h : s.params.bufSize < n.toNat) :
    execEncode n s = .next (s.raise .invalidArgument) := by
  simp [execEncode, h]

theorem execDecode_refused {n : Half} {s : State} (h : s.params.bufSize < n.toNat) :
    execDecode n s = .next (s.raise .invalidArgument) := by
  simp [execDecode, h]

theorem execDecode_of_error {n : Half} {s : State} {e : Status} (hn : n.toNat ≤ s.params.bufSize)
    (h : decodeFrame s.params (s.buf.readList 0 n.toNat) = .error e) : execDecode n s = .next (s.decodeFailed e) := by
  simp [execDecode, Nat.not_lt.mpr hn, h]

theorem execDecode_of_ok {n : Half} {s : State} {f : Frame} (hn : n.toNat ≤ s.params.bufSize)
    (h : decodeFrame s.params (s.buf.readList 0 n.toNat) = .ok f) : execDecode n s = .next (s.decodeOk f) := by
  simp [execDecode, Nat.not_lt.mpr hn, h]

theorem execEncode_update (n : Half) (s : State) : ∃ t, execEncode n s = .next t ∧ Update (.encode n) s t := by
  rcases Nat.lt_or_ge s.params.bufSize n.toNat with hn | hn
  · exact ⟨_, execEncode_refused hn, .answer ..⟩
  · refine ⟨_, execEncode_eq s n hn, ?_⟩
    split
    · exact .encodeFailed hn ‹_›
    · exact .encodeOk hn (by omega)

theorem execDecode_update (n : Half) (s : State) : ∃ t, execDecode n s = .next t ∧ Update (.decode n) s t := by
  rcases Nat.lt_or_ge s.params.bufSize n.toNat with hn | hn
  · exact ⟨_, execDecode_refused hn, .answer ..⟩
  · rcases hrun : decodeFrame s.params (s.buf.readList 0 n.toNat) with e | f
    · exact ⟨_, execDecode_of_error hn hrun, .decodeFailed hn hrun⟩
    · exact ⟨_, execDecode_of_ok hn hrun, .decodeOk hn hrun⟩

/-- Every command completes, with an update that is its own. -/
theorem exec_update (i : Instr) (s : State) : ∃ t, exec i s = .next t ∧ Update i s t := by
  cases i with
  | encode n => exact execEncode_update n s
  | decode n => exact execDecode_update n s
  | nop | rdAddr | rdCtrl | rdLen | ctrlParse a => exact ⟨_, rfl, .answer ..⟩
  | wrAddr a => exact ⟨_, rfl, .wrAddr a s⟩
  | wrCtrl a => exact ⟨_, rfl, .wrCtrl a s⟩
  | clrFrame => exact ⟨_, rfl, .clrFrame s⟩
  | buildI a b c => exact ⟨_, rfl, .buildI a b c s⟩
  | buildS a b c => exact ⟨_, rfl, .buildS a b c s⟩
  | wrLen a =>
    refine ⟨_, rfl, ?_⟩
    split
    · exact .answer ..
    · exact .wrLen (by omega)
  | wrInfo a b =>
    refine ⟨_, rfl, ?_⟩
    split
    · exact .answer ..
    · exact .wrInfo b (by omega)
  | wrBuf n c =>
    refine ⟨_, rfl, ?_⟩
    split
    · exact .answer ..
    · exact .wrBuf c (by omega)
  | buildU a b =>
    refine ⟨_, rfl, ?_⟩
    split
    · exact .answer ..
    · exact .buildU b s ‹_›
  | crcBuf n =>
    refine ⟨_, rfl, ?_⟩
    split
    · exact .answer ..
    · exact .crcBuf (by omega)
  | rdInfo a | rdBuf n | stuff a b | unstuff a b c =>
    refine ⟨_, rfl, ?_⟩
    split <;> exact .answer ..

theorem update_of_exec {i : Instr} {s t : State} (h : exec i s = .next t) : Update i s t := by
  obtain ⟨t', ht', hu⟩ := exec_update i s
  cases h.symm.trans ht'
  exact hu

/-! ## The invariant -/

/-- No update writes the parameters (R26). -/
theorem Update.params_eq {i : Instr} {s t : State} (h : Update i s t) : t.params = s.params := by
  cases h <;> rfl

/-- Every update keeps the invariant (R20, R21, R50). -/
theorem Update.inv {i : Instr} {s t : State} (h : Update i s t) (hs : s.Inv) : t.Inv := by
  obtain ⟨hvalid, hlength, hle, hwf, hwithin⟩ := hs
  cases h with
  | answer | wrAddr | wrCtrl | buildI | buildS | buildU | crcBuf => exact ⟨hvalid, hlength, hle, hwf, hwithin⟩
  | wrLen h => exact ⟨hvalid, hlength, h, hwf, hwithin⟩
  | wrInfo b h => exact ⟨hvalid, List.length_set.trans hlength, hle, hwf, hwithin⟩
  | clrFrame => exact ⟨hvalid, Frame.zero_length _, Nat.zero_le _, hwf, hwithin⟩
  | wrBuf c h => exact ⟨hvalid, hlength, hle, Memory.wf_write hwf _ c, Memory.within_write hwithin h c⟩
  | encodeOk hn hfit =>
    exact ⟨hvalid, hlength, hle, Memory.wf_writeList hwf 0 _, Memory.within_writeList hwithin _ (by omega)⟩
  | encodeFailed hn hfull =>
    exact ⟨hvalid, hlength, hle, Memory.wf_writeList hwf 0 _, Memory.within_writeList hwithin _ (by simpa using hn)⟩
  | decodeOk hn h =>
    obtain ⟨address, control, info, hinfo, rfl⟩ := decodeFrame_ok_ofInfo h
    exact ⟨hvalid, Frame.ofInfo_info_length address control hinfo, Frame.ofInfo_infoLen_le address control hinfo, hwf,
      hwithin⟩
  | decodeFailed => exact ⟨hvalid, s.drawFrame_info_length, s.drawFrame_infoLen_le, hwf, hwithin⟩

/-- Everything a step can leave: the state as it was, or, with the event taken, what a reset, an undefined command or the
update of a command makes of it. -/
theorem step_next_cases {s t : State} (h : step s = .next t) :
    t = s ∨ ∃ rest, t = State.applyReset { s with input := rest } ∨ t = State.undefinedCommand { s with input := rest }
      ∨ ∃ i, Update i { s with input := rest } t := by
  rcases step_cases s with ⟨-, hstep⟩ | ⟨rest, -, hstep⟩ | ⟨w, rest, e, -, -, hstep⟩ | ⟨w, rest, i, -, -, hstep⟩
  · cases hstep.symm.trans h
    exact .inl rfl
  · cases hstep.symm.trans h
    exact .inr ⟨rest, .inl rfl⟩
  · cases hstep.symm.trans h
    exact .inr ⟨rest, .inr (.inl rfl)⟩
  · exact .inr ⟨rest, .inr (.inr ⟨i, update_of_exec (hstep.symm.trans h)⟩)⟩

/-- After a reset the state meets the invariant, whatever FR and BUF held before (R280). -/
theorem State.applyReset_inv (s : State) (h : s.params.Valid) : s.applyReset.Inv :=
  ⟨h, Frame.zero_length _, Nat.zero_le _, rfl, rfl⟩

theorem State.resetWith_inv {p : Params} (h : p.Valid) : (State.resetWith p).Inv :=
  ⟨h, Frame.zero_length _, Nat.zero_le _, rfl, rfl⟩

/-- Settles O41, by what a step can leave. -/
theorem stepKeepsTheStateInvariant : Obligations.StepKeepsTheStateInvariant := by
  intro s t hs h
  obtain rfl | ⟨rest, rfl | rfl | ⟨i, hu⟩⟩ := step_next_cases h
  · exact hs
  · exact State.applyReset_inv _ hs.1
  · exact hs
  · exact hu.inv hs

/-- Settles O42. -/
theorem resetMeetsTheStateInvariant : Obligations.ResetMeetsTheStateInvariant :=
  ⟨State.resetWith_inv (by decide), fun _ => State.resetWith_inv⟩

/-- Settles O52, by what a step can leave. -/
theorem parametersNeverChange : Obligations.ParametersNeverChange := by
  intro s t h
  obtain rfl | ⟨rest, rfl | rfl | ⟨i, hu⟩⟩ := step_next_cases h
  · rfl
  · rfl
  · rfl
  · exact hu.params_eq

/-- What every step keeps, a run of any length keeps. -/
theorem run_preserves {P : State → Prop} (hstep : ∀ s t, P s → step s = .next t → P t) {k : Nat} {s t : State} (hs : P s)
    (h : core.run k s = .next t) : P t := by
  induction k generalizing s with
  | zero =>
    cases h
    exact hs
  | succ k ih =>
    simp only [Host.Core.run] at h
    split at h
    · exact ih (hstep _ _ hs ‹_›) h
    · cases h
    · cases h

/-- Settles O43, from the invariant of a step and the state after reset. -/
theorem infoLenNeverPassesMaxInfo : Obligations.InfoLenNeverPassesMaxInfo := by
  intro p input k t hp h
  have hstart : State.Inv { State.resetWith p with input := input } := State.resetWith_inv hp
  have hinv : t.Inv := run_preserves stepKeepsTheStateInvariant hstart h
  have hparams : t.params = p :=
    run_preserves (P := fun s => s.params = p) (fun s t hs hst => (parametersNeverChange s t hst).trans hs) rfl h
  obtain ⟨-, -, hle, -, -⟩ := hinv
  exact ⟨hle, hparams⟩

/-- Settles O58: a reset comes next, so the step applies it. -/
theorem resetZeroesTheFrameRegister : Obligations.ResetZeroesTheFrameRegister := by
  refine ⟨fun p => rfl, fun s rest h => ⟨State.applyReset { s with input := rest }, ?_, rfl, rfl⟩⟩
  simp [step, fetch_cons h]

/-! ## Which commands write FR -/

/-- Settles O44, by what the command can update: an answer leaves FR as it is, whatever the command. -/
theorem onlyNamedCommandsWriteTheFrame : Obligations.OnlyNamedCommandsWriteTheFrame := by
  intro i s t h
  cases update_of_exec h with
  | answer _ _ st v => cases i <;> simp
  | buildU => exact ⟨rfl, fun hst => absurd rfl hst⟩
  | clrFrame | decodeOk | decodeFailed => trivial
  | wrAddr | wrCtrl | wrLen | wrInfo | wrBuf | buildI | buildS | crcBuf | encodeOk | encodeFailed => rfl

/-! ## What ENCODE reads -/

/-- The encoded frame is that of FR.address, FR.control and FR.info[0..info_len) (R22, R175). -/
theorem wireFrame_congr (scope : FcsScope) {f f' : Frame} (haddress : f.address = f'.address)
    (hcontrol : f.control = f'.control) (hinfo : f.infoPrefix = f'.infoPrefix) : wireFrame scope f = wireFrame scope f' := by
  simp only [wireFrame, stuffedContent, fcsOf, haddress, hcontrol, hinfo]

/-- Settles O26, by the three ends of ENCODE: both states encode the same frame, and BUF[0..K) is that frame. -/
theorem encodeDependsOnTheFrameAlone : Obligations.EncodeDependsOnTheFrameAlone := by
  intro s s' n hparams haddress hcontrol _ hinfo
  have hwire : wireFrame s.params.fcsScope s.fr = wireFrame s'.params.fcsScope s'.fr := by
    rw [hparams]
    exact wireFrame_congr _ haddress hcontrol hinfo
  rcases Nat.lt_or_ge s.params.bufSize n.toNat with hn | hn
  · have hn' : s'.params.bufSize < n.toNat := hparams ▸ hn
    refine ⟨_, _, execEncode_refused hn, execEncode_refused hn', rfl, ?_⟩
    simp
  · refine ⟨_, _, execEncode_eq s n hn, execEncode_eq s' n (hparams ▸ hn), ?_⟩
    rw [← hwire]
    generalize wireFrame s.params.fcsScope s.fr = wire
    by_cases hlen : n.toNat < wire.length
    · simp [hlen]
    · simp only [hlen, if_false, State.encodeOk_response, State.encodeOk_buf, true_and]
      rintro v ⟨⟩ i hi
      have hi' : i < wire.length := by
        rw [BitVec.toNat_ofNat] at hi
        exact Nat.lt_of_lt_of_le hi (Nat.mod_le _ _)
      simp [Memory.read_writeList, hi']

/-! ## What no command reads -/

/-- Settles O46: every command ends by giving its own response, and its tests read other fields. -/
theorem noCommandReadsTheResponse : Obligations.NoCommandReadsTheResponse := by
  intro i s r
  cases i <;> rfl

/-- The states agree in everything but the CRC register and the working state of the encoder and the decoder (R28 to R30). -/
def AgreeOutsideWorkingState (t t' : State) : Prop :=
  { t with crc := t'.crc, enc := t'.enc, dec := t'.dec } = t'

theorem AgreeOutsideWorkingState.fields {t t' : State} (h : AgreeOutsideWorkingState t t') :
    t.fr = t'.fr ∧ t.buf = t'.buf ∧ t.response = t'.response ∧ t.params = t'.params ∧ t.input = t'.input
      ∧ t.draws = t'.draws := by
  rw [← h]
  exact ⟨rfl, rfl, rfl, rfl, rfl, rfl⟩

/-- A test that both runs decide alike keeps them in agreement. -/
theorem AgreeOutsideWorkingState.ite {t₁ t₁' t₂ t₂' : State} (c : Prop) [Decidable c]
    (h₁ : AgreeOutsideWorkingState t₁ t₁') (h₂ : AgreeOutsideWorkingState t₂ t₂') :
    AgreeOutsideWorkingState (if c then t₁ else t₂) (if c then t₁' else t₂') := by
  split
  · exact h₁
  · exact h₂

section exec
variable (s : State) (crc : Half) (enc : Encoder) (dec : Decoder)

theorem execEncode_agree (n : Half) :
    ∃ t t', execEncode n s = .next t ∧ execEncode n { s with crc := crc, enc := enc, dec := dec } = .next t'
      ∧ AgreeOutsideWorkingState t t' := by
  rcases Nat.lt_or_ge s.params.bufSize n.toNat with hn | hn
  · exact ⟨_, _, execEncode_refused hn, execEncode_refused hn, rfl⟩
  · exact ⟨_, _, execEncode_eq s n hn, execEncode_eq _ n hn, .ite _ rfl rfl⟩

theorem execDecode_agree (n : Half) :
    ∃ t t', execDecode n s = .next t ∧ execDecode n { s with crc := crc, enc := enc, dec := dec } = .next t'
      ∧ AgreeOutsideWorkingState t t' := by
  rcases Nat.lt_or_ge s.params.bufSize n.toNat with hn | hn
  · exact ⟨_, _, execDecode_refused hn, execDecode_refused hn, rfl⟩
  · rcases hrun : decodeFrame s.params (s.buf.readList 0 n.toNat) with e | f
    · exact ⟨_, _, execDecode_of_error hn hrun, execDecode_of_error hn hrun, rfl⟩
    · exact ⟨_, _, execDecode_of_ok hn hrun, execDecode_of_ok hn hrun, rfl⟩

/-- Two runs of a command that differ in the working state before it agree outside the working state after it. -/
theorem exec_agree (i : Instr) :
    ∃ t t', exec i s = .next t ∧ exec i { s with crc := crc, enc := enc, dec := dec } = .next t'
      ∧ AgreeOutsideWorkingState t t' := by
  cases i with
  | encode n => exact execEncode_agree s crc enc dec n
  | decode n => exact execDecode_agree s crc enc dec n
  | nop | wrAddr | wrCtrl | rdAddr | rdCtrl | rdLen | clrFrame | buildI | buildS | ctrlParse =>
    exact ⟨_, _, rfl, rfl, rfl⟩
  | wrLen | wrInfo | rdInfo | wrBuf | rdBuf | stuff | crcBuf => exact ⟨_, _, rfl, rfl, .ite _ rfl rfl⟩
  | unstuff a b c =>
    refine ⟨_, _, rfl, rfl, ?_⟩
    split <;> rfl
  | buildU a b =>
    refine ⟨_, _, rfl, rfl, ?_⟩
    split <;> rfl

end exec

/-- Settles O47, by the agreement of the two runs outside the working state. -/
theorem noCommandReadsTheWorkingState : Obligations.NoCommandReadsTheWorkingState := by
  intro i s crc enc dec
  obtain ⟨t, t', ht, ht', hagree⟩ := exec_agree s crc enc dec i
  exact ⟨t, t', ht, ht', hagree.fields⟩

end Sys2Proof.Machine
end

section
/-! PROOFS. The statements about BUF and the order of the commands (20_memory.md): what DECODE reads, what the commands write
outside FR, and the command a step runs. -/

namespace Sys2Proof.Machine

/-! ## The errors of a DECODE run -/

/-- A bind that fails fails in its first part, or in the second after the first has succeeded. -/
theorem except_bind_eq_error {ε α β : Type} {x : Except ε α} {f : α → Except ε β} {e : ε} :
    x >>= f = .error e ↔ x = .error e ∨ ∃ a, x = .ok a ∧ f a = .error e := by
  cases x <;> simp [bind, Except.bind]

/-- The errors of DECODE that a stream by itself gives rise to (R253, R255). -/
def StreamError (e : Status) : Prop := e = .incompleteFrame ∨ e = .malformedStream

/-- The test for a raw flag, which the start and the stop flag share, fails as a malformed stream (R192, R201). -/
theorem flagTest_streamError {α : Type} {v : Byte} {x : α} {e : Status}
    (h : (if v = flagByte then .ok x else .error .malformedStream : Except Status α) = .error e) : StreamError e := by
  split at h
  · cases h
  · cases h
    exact .inr rfl

theorem decodeStart_streamError {r : List Byte} {e : Status} (h : decodeStart r = .error e) : StreamError e := by
  cases r with
  | nil =>
    cases h
    exact .inl rfl
  | cons v r => exact flagTest_streamError h

theorem decodeByte_streamError {r : List Byte} {e : Status} (h : decodeByte r = .error e) : StreamError e :=
  (decodeByte_error h).imp And.right And.right

theorem decodeInfo_streamError {maxInfo passes : Nat} {info r : List Byte} {e : Status}
    (h : decodeInfo maxInfo passes info r = .error e) : StreamError e := by
  induction passes generalizing info r with
  | zero => cases h
  | succ passes ih =>
    simp only [decodeInfo] at h
    split at h
    · cases h
    · split at h
      · cases h
        exact .inr rfl
      · split at h
        · rename_i hbyte
          cases h
          exact decodeByte_streamError hbyte
        · exact ih h

theorem decodeStop_streamError {r : List Byte} {e : Status} (h : decodeStop r = .error e) : StreamError e := by
  cases r with
  | nil =>
    cases h
    exact .inl rfl
  | cons v r => exact flagTest_streamError h

/-- A run of DECODE fails on its stream or on the checksum (R253 to R255). -/
theorem decodeFrame_error {p : Params} {input : List Byte} {e : Status} (h : decodeFrame p input = .error e) :
    e = .checksumMismatch ∨ StreamError e := by
  simp only [decodeFrame, except_bind_eq_error] at h
  obtain h | ⟨_, -, h | ⟨⟨_, _⟩, -, h | ⟨⟨_, _⟩, -, h | ⟨⟨_, _⟩, -, h | ⟨⟨_, _⟩, -, h | ⟨⟨_, _⟩, -, h⟩⟩⟩⟩⟩⟩ := h
  · exact .inr (decodeStart_streamError h)
  · exact .inr (decodeByte_streamError h)
  · exact .inr (decodeByte_streamError h)
  · exact .inr (decodeInfo_streamError h)
  · exact .inr (decodeByte_streamError h)
  · exact .inr (decodeByte_streamError h)
  · split at h
    · cases h
      exact .inl rfl
    · obtain hstop | ⟨_, -, h⟩ := except_bind_eq_error.mp h
      · exact .inr (decodeStop_streamError hstop)
      · cases h

theorem decodeFrame_error_ne_ok {p : Params} {input : List Byte} {e : Status} (h : decodeFrame p input = .error e) :
    e ≠ .ok := by
  obtain rfl | rfl | rfl := decodeFrame_error h <;> decide

/-! ## What DECODE reads -/

/-- Settles O36: both states run on the same input, and a run that fails never answers OK. -/
theorem decodeDependsOnItsInputAlone : Obligations.DecodeDependsOnItsInputAlone := by
  intro s s' n hparams hbuf
  rcases Nat.lt_or_ge s.params.bufSize n.toNat with hn | hn
  · exact ⟨_, _, execDecode_refused hn, execDecode_refused (hparams ▸ hn), rfl, by simp⟩
  · have hn' : n.toNat ≤ s'.params.bufSize := hparams ▸ hn
    have hinput : s.buf.readList 0 n.toNat = s'.buf.readList 0 n.toNat :=
      Memory.readList_congr fun i _ hi => hbuf i (by omega)
    have hsame : decodeFrame s'.params (s'.buf.readList 0 n.toNat) = decodeFrame s.params (s.buf.readList 0 n.toNat) := by
      rw [hparams, hinput]
    rcases hrun : decodeFrame s.params (s.buf.readList 0 n.toNat) with e | f
    · refine ⟨_, _, execDecode_of_error hn hrun, execDecode_of_error hn' (hsame.trans hrun), rfl, fun hok => ?_⟩
      exact absurd (Option.some.inj hok) (decodeFrame_error_ne_ok hrun)
    · exact ⟨_, _, execDecode_of_ok hn hrun, execDecode_of_ok hn' (hsame.trans hrun), rfl, fun _ => rfl⟩

/-! ## Which commands write BUF and the working state -/

/-- No update takes an event of the host's: the step has taken the command before it runs. -/
theorem Update.input_eq {i : Instr} {s t : State} (h : Update i s t) : t.input = s.input := by
  cases h <;> rfl

/-- Settles O45, by what the command can update: an answer writes none of these, WR_BUF one index, and ENCODE at most as many
bytes as its capacity, from index 0 on. -/
theorem onlyNamedCommandsWriteTheRest : Obligations.OnlyNamedCommandsWriteTheRest := by
  intro i s t h
  have hu := update_of_exec h
  refine ⟨hu.params_eq, hu.input_eq, ?_⟩
  cases hu with
  | answer _ _ st v => cases i <;> simp
  | wrBuf c hn => exact ⟨fun a ha => by simp [ha], rfl, rfl, rfl⟩
  | encodeOk hn hfit => exact ⟨fun a ha => Memory.read_writeList_outside _ _ _ (.inr (by omega)), rfl⟩
  | encodeFailed hn hfull => exact ⟨fun a ha => Memory.read_writeList_outside _ _ _ (.inr (by simpa using ha)), rfl⟩
  | decodeOk | decodeFailed => exact ⟨rfl, rfl⟩
  | crcBuf => exact ⟨rfl, rfl, rfl⟩
  | wrAddr | wrCtrl | wrLen | wrInfo | clrFrame | buildI | buildS | buildU => exact ⟨rfl, rfl, rfl, rfl⟩

/-! ## The command a step runs -/

/-- A word taken with all its 32 bits is itself. -/
@[simp] theorem tableWord_toNat (w : Word) : tableWord 32 w.toNat = w := by
  rw [tableWord, Nat.mod_eq_of_lt w.isLt, BitVec.ofNat_toNat, BitVec.setWidth_eq]

/-- A step takes the command that comes next and runs it whole (R58). -/
theorem step_of_command {s : State} {w : Word} {rest : List HostEvent} {i : Instr} (h : s.input = .command w :: rest)
    (hd : decode w = .ok i) : step s = exec i { s with input := rest } := by
  simp [step, fetch_cons h, hd]

/-- Settles O57: a word issued next stands first among the events, and taking it gives back the state before it was issued. -/
theorem stepRunsTheDecodedCommand : Obligations.StepRunsTheDecodedCommand := by
  refine ⟨fun s w rest i => step_of_command, fun s w i hd => ?_⟩
  have hinput : (s.withFetchWord 32 w.toNat).input = .command w :: s.input := by simp
  rw [step_of_command hinput hd, State.withFetchWord_rest]

end Sys2Proof.Machine
end

section
/-! PROOFS. The statements about encodings (30_encoding.md): the command word, its decoder and its encoder, the response every
command gives, and the flags of the encoded frame. -/

namespace Sys2Proof

/-! ## The fields of a word -/

/-- A word is its four byte fields (R70). -/
theorem wordABC_fields (w : Word) : wordABC (cField w) (bField w) (aField w) (opField w) = w := by
  unfold wordABC cField bField aField opField
  rw [BitVec.extractLsb'_append_extractLsb'_eq_extractLsb' (show 24 = 16 + 8 from rfl),
    BitVec.extractLsb'_append_extractLsb'_eq_extractLsb' (show 16 = 8 + 8 from rfl),
    BitVec.extractLsb'_append_extractLsb'_eq_extractLsb' (show 8 = 0 + 8 from rfl)]
  exact BitVec.extractLsb'_eq_self

/-- A word is its operand C, its operand `n` and its `op` (R70, R71). -/
theorem wordNC_fields (w : Word) : wordNC (cField w) (nField w) (opField w) = w := by
  unfold wordNC cField nField opField
  rw [BitVec.extractLsb'_append_extractLsb'_eq_extractLsb' (show 24 = 8 + 16 from rfl),
    BitVec.extractLsb'_append_extractLsb'_eq_extractLsb' (show 8 = 0 + 8 from rfl)]
  exact BitVec.extractLsb'_eq_self

theorem and_wordABC (w : Word) (c b a op : Byte) :
    w &&& wordABC c b a op = wordABC (cField w &&& c) (bField w &&& b) (aField w &&& a) (opField w &&& op) := by
  have hand : wordABC (cField w) (bField w) (aField w) (opField w) &&& wordABC c b a op
      = wordABC (cField w &&& c) (bField w &&& b) (aField w &&& a) (opField w &&& op) := by
    simp only [wordABC, ← BitVec.and_append]
  rwa [wordABC_fields] at hand

theorem and_wordNC (w : Word) (c op : Byte) (n : Half) :
    w &&& wordNC c n op = wordNC (cField w &&& c) (nField w &&& n) (opField w &&& op) := by
  have hand : wordNC (cField w) (nField w) (opField w) &&& wordNC c n op
      = wordNC (cField w &&& c) (nField w &&& n) (opField w &&& op) := by
    simp only [wordNC, ← BitVec.and_append]
  rwa [wordNC_fields] at hand

/-- The bits format N reads (R73). -/
theorem and_maskN (w : Word) : w &&& 0x000000FF = wordABC 0 0 0 (opField w) := by
  rw [show (0x000000FF : Word) = wordABC 0 0 0 (BitVec.allOnes 8) from rfl, and_wordABC]
  simp only [BitVec.ofNat_eq_ofNat, BitVec.and_zero, BitVec.and_allOnes]

/-- The bits format A reads (R73). -/
theorem and_maskA (w : Word) : w &&& 0x0000FFFF = wordABC 0 0 (aField w) (opField w) := by
  rw [show (0x0000FFFF : Word) = wordABC 0 0 (BitVec.allOnes 8) (BitVec.allOnes 8) from rfl, and_wordABC]
  simp only [BitVec.ofNat_eq_ofNat, BitVec.and_zero, BitVec.and_allOnes]

/-- The bits format AB reads (R73). -/
theorem and_maskAB (w : Word) : w &&& 0x00FFFFFF = wordABC 0 (bField w) (aField w) (opField w) := by
  rw [show (0x00FFFFFF : Word) = wordABC 0 (BitVec.allOnes 8) (BitVec.allOnes 8) (BitVec.allOnes 8) from rfl, and_wordABC]
  simp only [BitVec.ofNat_eq_ofNat, BitVec.and_zero, BitVec.and_allOnes]

/-- The bits format NN reads (R73). -/
theorem and_maskNN (w : Word) : w &&& 0x00FFFFFF = wordNC 0 (nField w) (opField w) := by
  rw [show (0x00FFFFFF : Word) = wordNC 0 (BitVec.allOnes 16) (BitVec.allOnes 8) from rfl, and_wordNC]
  simp only [BitVec.ofNat_eq_ofNat, BitVec.and_zero, BitVec.and_allOnes]

/-- Formats ABC and NC read every bit (R73). -/
theorem and_maskAll (w : Word) : w &&& 0xFFFFFFFF = w := BitVec.and_allOnes

/-! ## The decoder -/

/-- The command with its operands read from the fields of a word (R73). -/
def Instr.withOperandsOf (w : Word) : Instr → Instr
  | .nop => .nop
  | .wrAddr _ => .wrAddr (aField w)
  | .wrCtrl _ => .wrCtrl (aField w)
  | .wrLen _ => .wrLen (aField w)
  | .wrInfo _ _ => .wrInfo (aField w) (bField w)
  | .rdAddr => .rdAddr
  | .rdCtrl => .rdCtrl
  | .rdLen => .rdLen
  | .rdInfo _ => .rdInfo (aField w)
  | .clrFrame => .clrFrame
  | .wrBuf _ _ => .wrBuf (nField w) (cField w)
  | .rdBuf _ => .rdBuf (nField w)
  | .stuff _ _ => .stuff (aField w) (bField w)
  | .unstuff _ _ _ => .unstuff (aField w) (bField w) (cField w)
  | .buildI _ _ _ => .buildI (aField w) (bField w) (cField w)
  | .buildS _ _ _ => .buildS (aField w) (bField w) (cField w)
  | .buildU _ _ => .buildU (aField w) (bField w)
  | .ctrlParse _ => .ctrlParse (aField w)
  | .crcBuf _ => .crcBuf (nField w)
  | .encode _ => .encode (nField w)
  | .decode _ => .decode (nField w)

/-- The `op` selects the command, and its operands are the word's fields (R72, R73). -/
theorem decode_of_opcode {w : Word} {i : Instr} (h : opField w = opcode i) : decode w = .ok (i.withOperandsOf w) := by
  cases i <;> (unfold decode; rw [h]; rfl)

/-- A word that decodes has the command's `op`, and the command's operands as its fields (R72, R73). -/
theorem decode_ok {w : Word} {i : Instr} (h : decode w = .ok i) : opField w = opcode i ∧ i.withOperandsOf w = i := by
  unfold decode at h
  split at h <;> cases h <;> exact ⟨‹opField w = _›, rfl⟩

theorem opField_encode : ∀ i : Instr, opField (encode i) = opcode i
  | .nop => Laws.OpcodeInWord.nop
  | .wrAddr a => Laws.OpcodeInWord.wrAddr a
  | .wrCtrl a => Laws.OpcodeInWord.wrCtrl a
  | .wrLen a => Laws.OpcodeInWord.wrLen a
  | .wrInfo a b => Laws.OpcodeInWord.wrInfo a b
  | .rdAddr => Laws.OpcodeInWord.rdAddr
  | .rdCtrl => Laws.OpcodeInWord.rdCtrl
  | .rdLen => Laws.OpcodeInWord.rdLen
  | .rdInfo a => Laws.OpcodeInWord.rdInfo a
  | .clrFrame => Laws.OpcodeInWord.clrFrame
  | .wrBuf n c => Laws.OpcodeInWord.wrBuf n c
  | .rdBuf n => Laws.OpcodeInWord.rdBuf n
  | .stuff a b => Laws.OpcodeInWord.stuff a b
  | .unstuff a b c => Laws.OpcodeInWord.unstuff a b c
  | .buildI a b c => Laws.OpcodeInWord.buildI a b c
  | .buildS a b c => Laws.OpcodeInWord.buildS a b c
  | .buildU a b => Laws.OpcodeInWord.buildU a b
  | .ctrlParse a => Laws.OpcodeInWord.ctrlParse a
  | .crcBuf n => Laws.OpcodeInWord.crcBuf n
  | .encode n => Laws.OpcodeInWord.encode n
  | .decode n => Laws.OpcodeInWord.decode n

/-- The operands of a command are the fields of its word (R73). -/
theorem withOperandsOf_encode (i : Instr) : i.withOperandsOf (encode i) = i := by
  cases i <;> simp [Instr.withOperandsOf, encode]

/-- Settles O53: the word has the command's `op`, which selects it, and the command's operands as its fields. -/
theorem decodeInvertsEncode : Obligations.DecodeInvertsEncode := by
  intro i
  rw [decode_of_opcode (opField_encode i), withOperandsOf_encode]

/-- The encoder gives the word of a command back, with the bits its format does not read cleared (R73, R74). -/
theorem encode_withOperandsOf {w : Word} {i : Instr} (h : opField w = opcode i) :
    encode (i.withOperandsOf w) = w &&& readMask i := by
  cases i with
  | nop | rdAddr | rdCtrl | rdLen | clrFrame => exact (h ▸ and_maskN w).symm
  | wrAddr | wrCtrl | wrLen | rdInfo | ctrlParse => exact (h ▸ and_maskA w).symm
  | wrInfo | stuff | buildU => exact (h ▸ and_maskAB w).symm
  | rdBuf | crcBuf | encode | decode => exact (h ▸ and_maskNN w).symm
  | unstuff | buildI | buildS => exact (h ▸ wordABC_fields w).trans (and_maskAll w).symm
  | wrBuf => exact (h ▸ wordNC_fields w).trans (and_maskAll w).symm

/-- Every format reads `op` (R73). -/
theorem opField_and_readMask (w : Word) (i : Instr) : opField (w &&& readMask i) = opField w := by
  cases i with
  | nop | rdAddr | rdCtrl | rdLen | clrFrame => exact (congrArg opField (and_maskN w)).trans (opField_wordABC ..)
  | wrAddr | wrCtrl | wrLen | rdInfo | ctrlParse => exact (congrArg opField (and_maskA w)).trans (opField_wordABC ..)
  | wrInfo | stuff | buildU | rdBuf | crcBuf | encode | decode =>
    exact (congrArg opField (and_maskAB w)).trans (opField_wordABC ..)
  | unstuff | buildI | buildS | wrBuf => exact congrArg opField (and_maskAll w)

theorem encode_injective {i j : Instr} (h : encode i = encode j) : i = j :=
  Except.ok.inj ((decodeInvertsEncode i).symm.trans ((congrArg decode h).trans (decodeInvertsEncode j)))

/-- Settles O54: the encoder keeps exactly the bits the format reads, and no two commands have the same word. -/
theorem unreadBitsAreIgnored : Obligations.UnreadBitsAreIgnored := by
  intro w i h
  obtain ⟨hop, hoperands⟩ := decode_ok h
  have hword : encode i = w &&& readMask i := by
    rw [← encode_withOperandsOf hop, hoperands]
  refine ⟨fun w' hread => ?_, hword⟩
  have hop' : opField w' = opcode i := by
    rw [← opField_and_readMask w' i, hread, opField_and_readMask, hop]
  have hsame : i.withOperandsOf w' = i := encode_injective (by rw [encode_withOperandsOf hop', hread, hword])
  rw [decode_of_opcode hop', hsame]

/-! ## Undefined opcodes -/

/-- A command of each row of the opcode map, in its order (R72). -/
def opcodeMapRows : List Instr :=
  [.nop, .wrAddr 0, .wrCtrl 0, .wrLen 0, .wrInfo 0 0, .rdAddr, .rdCtrl, .rdLen, .rdInfo 0, .clrFrame, .wrBuf 0 0, .rdBuf 0,
    .stuff 0 0, .unstuff 0 0 0, .buildI 0 0 0, .buildS 0 0 0, .buildU 0 0, .ctrlParse 0, .crcBuf 0, .encode 0, .decode 0]

theorem mem_opcodeMap_iff (op : Byte) : op ∈ opcodeMapRows.map opcode ↔ ∃ i, opcode i = op := by
  constructor
  · intro h
    obtain ⟨i, -, hi⟩ := List.mem_map.mp h
    exact ⟨i, hi⟩
  · rintro ⟨i, rfl⟩
    cases i <;> simp [opcodeMapRows, opcode]

/-- A word is no command exactly when its `op` is that of none (R75). -/
theorem decode_error_iff (w : Word) : (∃ e, decode w = .error e) ↔ opField w ∉ opcodeMapRows.map opcode := by
  rw [mem_opcodeMap_iff]
  constructor
  · rintro ⟨e, he⟩ ⟨i, hi⟩
    cases he.symm.trans (decode_of_opcode hi.symm)
  · intro hnone
    rcases h : decode w with e | i
    · exact ⟨e, rfl⟩
    · obtain ⟨hop, -⟩ := decode_ok h
      exact absurd ⟨i, hop.symm⟩ hnone

/-- Settles O56, by decoding each word. -/
theorem writtenOutWordsDecode : Obligations.WrittenOutWordsDecode := ⟨rfl, rfl, rfl, rfl, rfl, rfl, rfl⟩

end Sys2Proof

namespace Sys2Proof.Machine

/-- A step answers an undefined command that comes next (R75). -/
theorem step_of_undefined {s : State} {w : Word} {rest : List HostEvent} {e : DecodeReject}
    (h : s.input = .command w :: rest) (hd : decode w = .error e) :
    step s = .next (State.undefinedCommand { s with input := rest }) := by
  simp [step, fetch_cons h, hd]

/-- Settles O55: the list is the opcode map's, and the step answers what an undefined command answers. -/
theorem undefinedOpcodesAnswerInvalidArgument : Obligations.UndefinedOpcodesAnswerInvalidArgument :=
  ⟨decode_error_iff, fun _ _ _ _ => step_of_undefined⟩

/-! ## Every command answers -/

/-- The state holds a response, whose value is 0 unless its status is OK (R76). -/
def Answered (t : State) : Prop := ∃ r, t.response = some r ∧ (r.status ≠ .ok → r.value = 0)

theorem answered_ok {t : State} {v : Word} (h : t.response = some { status := .ok, value := v }) : Answered t :=
  ⟨_, h, fun hne => absurd rfl hne⟩

theorem answered_error {t : State} {e : Status} (h : t.response = some { status := e, value := 0 }) : Answered t :=
  ⟨_, h, fun _ => rfl⟩

theorem execEncode_answered (n : Half) (s : State) : ∃ t, execEncode n s = .next t ∧ Answered t := by
  rcases Nat.lt_or_ge s.params.bufSize n.toNat with hn | hn
  · exact ⟨_, execEncode_refused hn, answered_error rfl⟩
  · refine ⟨_, execEncode_eq s n hn, ?_⟩
    split
    · exact answered_error rfl
    · exact answered_ok rfl

theorem execDecode_answered (n : Half) (s : State) : ∃ t, execDecode n s = .next t ∧ Answered t := by
  rcases Nat.lt_or_ge s.params.bufSize n.toNat with hn | hn
  · exact ⟨_, execDecode_refused hn, answered_error rfl⟩
  · rcases hrun : decodeFrame s.params (s.buf.readList 0 n.toNat) with e | f
    · exact ⟨_, execDecode_of_error hn hrun, answered_error rfl⟩
    · exact ⟨_, execDecode_of_ok hn hrun, answered_ok rfl⟩

/-- Every command completes with a response (R76, R293). -/
theorem exec_answered (i : Instr) (s : State) : ∃ t, exec i s = .next t ∧ Answered t := by
  cases i with
  | encode n => exact execEncode_answered n s
  | decode n => exact execDecode_answered n s
  | nop | wrAddr | wrCtrl | rdAddr | rdCtrl | rdLen | clrFrame | buildI | buildS | ctrlParse =>
    exact ⟨_, rfl, answered_ok rfl⟩
  | wrLen | wrInfo | rdInfo | wrBuf | rdBuf | stuff | unstuff | buildU | crcBuf =>
    refine ⟨_, rfl, ?_⟩
    split
    · exact answered_error rfl
    · exact answered_ok rfl

theorem Status.code_ne_seven (st : Status) : st.code ≠ 7 := by
  cases st <;> decide

/-- Settles O48, from the response every command gives and the codes of the statuses. -/
theorem everyCommandCompletesWithAResponse : Obligations.EveryCommandCompletesWithAResponse := by
  refine ⟨fun i s => ?_, rfl, rfl, rfl, rfl, rfl, rfl, rfl⟩
  obtain ⟨t, ht, r, hr, hvalue⟩ := exec_answered i s
  exact ⟨t, r, ht, hr, hvalue, Status.code_ne_seven r.status⟩

/-! ## The encoded frame -/

/-- Stuffing adds one byte for each escaped byte (R110, R176). -/
theorem flatMap_stuffBytes_length (vs : List Byte) :
    (vs.flatMap stuffBytes).length = vs.length + vs.countP fun v => decide (v = flagByte ∨ v = escByte) := by
  induction vs with
  | nil => rfl
  | cons v vs ih =>
    simp only [List.flatMap_cons, List.length_append, stuffBytes_length, ih, List.length_cons, List.countP_cons,
      decide_eq_true_eq]
    split <;> omega

/-- In a frame that holds FR.info_len info bytes, the encoded frame has K bytes (R176). -/
theorem wireFrame_length (scope : FcsScope) {f : Frame} (h : f.infoLen.toNat ≤ f.info.length) :
    (wireFrame scope f).length = encodedLength scope f := by
  have hcontent : (stuffedContent scope f).length = f.infoLen.toNat + 4 := by
    simp [stuffedContent, Frame.infoPrefix, h]
  simp only [wireFrame, List.length_cons, List.length_append, List.length_nil, flatMap_stuffBytes_length, hcontent,
    encodedLength, escapedCount]
  omega

theorem State.Inv.wireFrame_length {s : State} (h : s.Inv) :
    (wireFrame s.params.fcsScope s.fr).length = s.encodedLength := by
  obtain ⟨-, hlength, hle, -, -⟩ := h
  exact Machine.wireFrame_length _ (hlength ▸ hle)

/-- Stuffing leaves no flag: it replaces 0x7E, and no escape pair holds one (R88, R89). -/
theorem flagByte_notMem_stuffBytes (v : Byte) : flagByte ∉ stuffBytes v := by
  obtain ⟨rfl | rfl, h⟩ | ⟨hflag, -, h⟩ := stuffBytes_cases v
  · rw [h]
    decide
  · rw [h]
    decide
  · rw [h, List.mem_singleton]
    exact Ne.symm hflag

theorem flagByte_notMem_flatMap_stuffBytes (vs : List Byte) : flagByte ∉ vs.flatMap stuffBytes := by
  intro h
  obtain ⟨v, -, hv⟩ := List.mem_flatMap.mp h
  exact flagByte_notMem_stuffBytes v hv

/-- What is written from index 0 on is read back there (R57). -/
theorem Memory.read_writeList_zero (m : Memory) {vs : List Byte} {i : Nat} {v : Byte} (h : vs[i]? = some v) :
    (m.writeList 0 vs).read i = v := by
  simp [Memory.read_writeList, h]

section wireFrame
variable (scope : FcsScope) (f : Frame)

theorem wireFrame_first : (wireFrame scope f)[0]? = some flagByte := rfl

theorem wireFrame_last : (wireFrame scope f)[(wireFrame scope f).length - 1]? = some flagByte := by
  rw [← List.getLast?_eq_getElem?, wireFrame, ← List.cons_append, List.getLast?_concat]

/-- Between its flags the encoded frame holds stuffed bytes (R87). -/
theorem wireFrame_inner {i : Nat} (h : 0 < i) (h' : i < (wireFrame scope f).length - 1) :
    ∃ v ∈ (stuffedContent scope f).flatMap stuffBytes, (wireFrame scope f)[i]? = some v := by
  cases i with
  | zero => exact absurd h (Nat.lt_irrefl 0)
  | succ j =>
    have hj : j < ((stuffedContent scope f).flatMap stuffBytes).length := by simpa [wireFrame] using h'
    refine ⟨_, List.getElem_mem hj, ?_⟩
    rw [wireFrame, List.getElem?_cons_succ, List.getElem?_append_left hj, List.getElem?_eq_getElem hj]

end wireFrame

/-- Settles O25: BUF[0..K) is the encoded frame, and what lies between its flags is stuffed. -/
theorem encodedFrameHasNoInnerFlag : Obligations.EncodedFrameHasNoInnerFlag := by
  intro s n hinv hn hfit
  rw [← hinv.wireFrame_length] at hfit ⊢
  have hexec := execEncode_eq s n hn
  rw [if_neg (Nat.not_lt.mpr hfit)] at hexec
  refine ⟨_, hexec, Memory.read_writeList_zero _ (wireFrame_first ..), Memory.read_writeList_zero _ (wireFrame_last ..),
    fun i hi hi' => ?_⟩
  obtain ⟨v, hv, hread⟩ := wireFrame_inner _ _ hi hi'
  rw [State.encodeOk_buf, Memory.read_writeList_zero _ hread]
  rintro rfl
  exact flagByte_notMem_flatMap_stuffBytes _ hv

end Sys2Proof.Machine
end

section
/-! PROOFS. The statements about byte stuffing (40_stuffing.md): the unstuffer undoes the stuffer, and what STUFF and UNSTUFF
answer. -/

namespace Sys2Proof

/-- The `op` selects the command, whose operands stand in the fields its format reads (R72, R73). -/
theorem decode_wordABC (i : Instr) (c b a : Byte)
    (h : i.withOperandsOf (wordABC c b a (opcode i)) = i) : decode (wordABC c b a (opcode i)) = .ok i := by
  rw [decode_of_opcode (opField_wordABC ..), h]

end Sys2Proof

namespace Sys2Proof.Machine

/-! ## The stuffer and the unstuffer -/

theorem stuffBytes_escaped {v : Byte} (h : v = flagByte ∨ v = escByte) : stuffBytes v = [escByte, v ^^^ escXor] :=
  if_pos h

theorem stuffBytes_unescaped {v : Byte} (h : Unescaped v) : stuffBytes v = [v] :=
  if_neg (not_or.mpr h)

/-- Settles O12: an escape pair is XORed back, and a byte sent as itself is no escape. -/
theorem unstuffInvertsStuff : Obligations.UnstuffInvertsStuff := by
  intro v rest
  obtain ⟨-, h⟩ | ⟨-, hesc, h⟩ := stuffBytes_cases v
  · have hxor : v ^^^ escXor ^^^ escXor = v := by
      rw [BitVec.xor_assoc, BitVec.xor_self, BitVec.xor_zero]
    simp [h, hxor]
  · rw [h]
    exact unstuff_plain hesc rest

/-! ## STUFF -/

/-- Packing four bytes into the fields of a word (R70). -/
theorem zext32_or_shifts (c b a op : Byte) :
    zext32 op ||| (zext32 a <<< 8) ||| (zext32 b <<< 16) ||| (zext32 c <<< 24) = wordABC c b a op := by
  have h : (wordABC c b a op).setWidth 32 = zext32 c <<< 24 ||| zext32 b <<< 16 ||| zext32 a <<< 8 ||| zext32 op :=
    BitVec.setWidth_append_append_append_eq_shiftLeft_setWidth_or
  rw [← BitVec.setWidth_eq (wordABC c b a op), h, BitVec.or_comm _ (zext32 op), BitVec.or_comm (_ ||| _) (zext32 a <<< 8),
    BitVec.or_comm (zext32 c <<< 24), BitVec.or_assoc, BitVec.or_assoc]

theorem stuffValue_one (x : Byte) : stuffValue [x] = wordABC 0x00 0x00 x 0x01 := by
  rw [← zext32_or_shifts]
  simp [stuffValue, zext32]

theorem stuffValue_two (x y : Byte) : stuffValue [x, y] = wordABC 0x00 y x 0x02 := by
  rw [← zext32_or_shifts]
  simp [stuffValue, zext32]

section stuff
variable (s : State) {a b : Byte}

theorem exec_stuff_noRoom (h : b.toNat < (stuffBytes a).length) :
    exec (.stuff a b) s = .next (s.answerError .bufferTooSmall) :=
  congrArg Host.Outcome.next (if_pos h)

theorem exec_stuff_room (h : (stuffBytes a).length ≤ b.toNat) :
    exec (.stuff a b) s = .next (s.answerOk (stuffValue (stuffBytes a))) :=
  congrArg Host.Outcome.next (if_neg (Nat.not_lt.mpr h))

end stuff

/-- Settles O10: the room is compared with two bytes for an escaped byte and with one for any other. -/
theorem stuffGivesTheWireBytes : Obligations.StuffGivesTheWireBytes := by
  refine ⟨fun a b c => decode_wordABC (.stuff a b) c b a (by simp [Instr.withOperandsOf]), fun s a b => ⟨?_, ?_, ?_, ?_⟩⟩
  · intro ha hb
    exact exec_stuff_noRoom s (by rwa [stuffBytes_escaped ha])
  · intro ha hb
    rw [exec_stuff_room s (by rwa [stuffBytes_escaped ha]), stuffBytes_escaped ha, stuffValue_two]
    rfl
  · rintro ha rfl
    exact exec_stuff_noRoom s (by simp [stuffBytes_unescaped ha])
  · intro ha hb
    have hroom : 0 < b.toNat := BitVec.toNat_pos_of_ne_zero hb
    rw [exec_stuff_room s (by rwa [stuffBytes_unescaped ha]), stuffBytes_unescaped ha, stuffValue_one]

/-! ## UNSTUFF -/

section unstuff
variable (s : State) {a b c : Byte}

theorem exec_unstuff_of_error {e : Status} (h : unstuff ([a, b].take c.toNat) = .error e) :
    exec (.unstuff a b c) s = .next (s.answerError e) := by
  simp only [exec, execUnstuff, h]
  rfl

/-- The value holds the decoded byte in bits 7..0 and the count consumed in bits 15..8 (R116). -/
theorem exec_unstuff_of_ok {v k : Byte} (h : unstuff ([a, b].take c.toNat) = .ok (v, k.toNat)) :
    exec (.unstuff a b c) s = .next (s.answerOk (wordABC 0x00 0x00 k v)) := by
  have hvalue : zext32 v ||| (BitVec.ofNat 32 k.toNat <<< 8) = wordABC 0x00 0x00 k v := by
    rw [← zext32_or_shifts]
    simp [zext32]
  simp only [exec, execUnstuff, h, hvalue]
  rfl

end unstuff

/-- Settles O11: the input is empty, the first byte, or both, and the unstuffer reads one unit of it. -/
theorem unstuffDecodesOneUnit : Obligations.UnstuffDecodesOneUnit := by
  refine ⟨fun a b c => decode_wordABC (.unstuff a b c) c b a (by simp [Instr.withOperandsOf]),
    fun s a b c => ⟨?_, ?_, ?_, ?_⟩⟩
  · rintro rfl
    exact exec_unstuff_of_error s unstuff_nil
  · rintro rfl rfl
    exact exec_unstuff_of_error s unstuff_dangling
  · intro hc ha
    obtain ⟨k, hk⟩ := Nat.exists_eq_succ_of_ne_zero (Nat.ne_of_gt (BitVec.toNat_pos_of_ne_zero hc))
    apply exec_unstuff_of_ok
    rw [hk, List.take_succ_cons]
    exact unstuff_plain ha _
  · rintro hc rfl
    have hinput : [0x7D, b].take c.toNat = [0x7D, b] := List.take_of_length_le hc
    apply exec_unstuff_of_ok
    rw [hinput]
    exact unstuff_escape b []

end Sys2Proof.Machine
end

section
/-! PROOFS. The statements about the control-field codec (41_control_field.md): the bytes the builders make, the fields
CTRL_PARSE takes from a byte, and what the two say of each other. -/

namespace Sys2Proof.Machine

/-! ## Four fields side by side -/

section fields
variable {k l m n : Nat} (d : BitVec k) (c : BitVec l) (b : BitVec m) (a : BitVec n)

theorem extractLsb'_field_zero : (d ++ c ++ b ++ a).extractLsb' 0 n = a := BitVec.extractLsb'_append_eq_right

theorem extractLsb'_field_one : (d ++ c ++ b ++ a).extractLsb' n m = b := by
  rw [BitVec.extractLsb'_append_eq_of_le (Nat.le_refl n), Nat.sub_self, BitVec.extractLsb'_append_eq_right]

theorem extractLsb'_field_two : (d ++ c ++ b ++ a).extractLsb' (m + n) l = c := by
  rw [BitVec.extractLsb'_append_eq_of_le (Nat.le_add_left n m), Nat.add_sub_cancel,
    BitVec.extractLsb'_append_eq_of_le (Nat.le_refl m), Nat.sub_self, BitVec.extractLsb'_append_eq_right]

theorem extractLsb'_field_three : (d ++ c ++ b ++ a).extractLsb' (l + m + n) k = d := by
  rw [BitVec.extractLsb'_append_eq_of_le (Nat.le_add_left n (l + m)), Nat.add_sub_cancel,
    BitVec.extractLsb'_append_eq_of_le (Nat.le_add_left m l), Nat.add_sub_cancel, BitVec.extractLsb'_append_eq_left]

/-- Shifts put the fields in place, the lowest first. -/
theorem or_shifts_eq_append :
    a.setWidth 8 ||| (b.setWidth 8 <<< n) ||| (c.setWidth 8 <<< (m + n)) ||| (d.setWidth 8 <<< (l + m + n))
      = (d ++ c ++ b ++ a).setWidth 8 := by
  rw [BitVec.setWidth_append_append_append_eq_shiftLeft_setWidth_or]
  ac_rfl

end fields

/-! ## Truncated operands and the fields of a byte -/

/-- Masking a byte with `n` ones keeps its low `n` bits. -/
theorem and_lowMask (v : Byte) (n : Nat) : v &&& BitVec.ofNat 8 (2 ^ n - 1) = (v.extractLsb' 0 n).setWidth 8 := by
  apply BitVec.eq_of_toNat_eq
  simp only [BitVec.toNat_and, BitVec.toNat_ofNat, BitVec.toNat_setWidth, BitVec.extractLsb'_toNat, Nat.shiftRight_zero]
  rw [← Nat.and_two_pow_sub_one_eq_mod v.toNat n, Nat.and_mod_two_pow, Nat.mod_eq_of_lt v.isLt]

/-- Shifting a byte down by `k` and masking it with `n` ones takes its `n` bits from bit `k` on. -/
theorem ushiftRight_and_lowMask (x : Byte) (k n : Nat) :
    (x >>> k) &&& BitVec.ofNat 8 (2 ^ n - 1) = (x.extractLsb' k n).setWidth 8 := by
  rw [and_lowMask, ← BitVec.setWidth_ushiftRight_eq_extractLsb, ← BitVec.setWidth_ushiftRight_eq_extractLsb,
    BitVec.ushiftRight_zero]

theorem seqField_eq (v : Byte) : seqField v = (v.extractLsb' 0 3).setWidth 8 := and_lowMask v 3
theorem pfField_eq (v : Byte) : pfField v = (v.extractLsb' 0 1).setWidth 8 := and_lowMask v 1
theorem scodeField_eq (v : Byte) : scodeField v = (v.extractLsb' 0 2).setWidth 8 := and_lowMask v 2

theorem ctrlPf_eq (x : Byte) : ctrlPf x = (x.extractLsb' 4 1).setWidth 8 := ushiftRight_and_lowMask x 4 1
theorem ctrlNs_eq (x : Byte) : ctrlNs x = (x.extractLsb' 1 3).setWidth 8 := ushiftRight_and_lowMask x 1 3
theorem ctrlCode_eq (x : Byte) : ctrlCode x = (x.extractLsb' 2 2).setWidth 8 := ushiftRight_and_lowMask x 2 2

/-- Bits 7..5 are all that a shift by 5 leaves, so they need no mask. -/
theorem ctrlHigh_eq (x : Byte) : ctrlHigh x = (x.extractLsb' 5 3).setWidth 8 := by
  apply BitVec.eq_of_toNat_eq
  simp only [ctrlHigh, BitVec.toNat_ushiftRight, BitVec.toNat_setWidth, BitVec.extractLsb'_toNat, Nat.shiftRight_eq_div_pow]
  omega

/-! ## The layouts -/

/-- The layout of an I-frame byte, from bit 7 down: N(R), P/F, N(S), and the set bit 0 (R81). -/
def iLayout (nr : BitVec 3) (pf : BitVec 1) (ns : BitVec 3) : Byte := nr ++ pf ++ ns ++ 1#1

/-- The layout of an S- or a U-frame byte, from bit 7 down: N(R) or M2, P/F, the S-code or M1, and the two bits that say
which (R82, R83). -/
def suLayout (high : BitVec 3) (pf : BitVec 1) (code low : BitVec 2) : Byte := high ++ pf ++ code ++ low

section iLayout
variable (nr : BitVec 3) (pf : BitVec 1) (ns : BitVec 3)

@[simp] theorem iLayout_bit0 : (iLayout nr pf ns).extractLsb' 0 1 = 1 := extractLsb'_field_zero ..
@[simp] theorem iLayout_ns : (iLayout nr pf ns).extractLsb' 1 3 = ns := extractLsb'_field_one ..
@[simp] theorem iLayout_pf : (iLayout nr pf ns).extractLsb' 4 1 = pf := extractLsb'_field_two ..
@[simp] theorem iLayout_nr : (iLayout nr pf ns).extractLsb' 5 3 = nr := extractLsb'_field_three ..

theorem or_shifts_eq_iLayout :
    (1#1).setWidth 8 ||| (ns.setWidth 8 <<< 1) ||| (pf.setWidth 8 <<< 4) ||| (nr.setWidth 8 <<< 5) = iLayout nr pf ns :=
  (or_shifts_eq_append nr pf ns 1#1).trans (BitVec.setWidth_eq _)

/-- The two bits that classify the byte (R80): the low bit of N(S) above the set bit 0. -/
theorem iLayout_low : (iLayout nr pf ns).extractLsb' 0 2 = ns.extractLsb' 0 1 ++ 1#1 :=
  calc (iLayout nr pf ns).extractLsb' 0 2
    _ = (nr ++ pf ++ ns ++ 1#1).setWidth (1 + 1) := (BitVec.setWidth_eq_extractLsb' (by decide)).symm
    _ = (nr ++ pf ++ ns).setWidth 1 ++ (1#1).setWidth 1 := BitVec.setWidth_append_of_eq rfl
    _ = ns.setWidth 1 ++ 1#1 := by rw [BitVec.setWidth_append, dif_pos (by decide), BitVec.setWidth_eq]
    _ = ns.extractLsb' 0 1 ++ 1#1 := by rw [BitVec.setWidth_eq_extractLsb' (by decide)]

end iLayout

section suLayout
variable (high : BitVec 3) (pf : BitVec 1) (code low : BitVec 2)

@[simp] theorem suLayout_low : (suLayout high pf code low).extractLsb' 0 2 = low := extractLsb'_field_zero ..
@[simp] theorem suLayout_code : (suLayout high pf code low).extractLsb' 2 2 = code := extractLsb'_field_one ..
@[simp] theorem suLayout_pf : (suLayout high pf code low).extractLsb' 4 1 = pf := extractLsb'_field_two ..
@[simp] theorem suLayout_high : (suLayout high pf code low).extractLsb' 5 3 = high := extractLsb'_field_three ..

theorem or_shifts_eq_suLayout :
    low.setWidth 8 ||| (code.setWidth 8 <<< 2) ||| (pf.setWidth 8 <<< 4) ||| (high.setWidth 8 <<< 5)
      = suLayout high pf code low :=
  (or_shifts_eq_append high pf code low).trans (BitVec.setWidth_eq _)

end suLayout

theorem iControl_eq (a b c : Byte) :
    iControl a b c = iLayout (c.extractLsb' 0 3) (b.extractLsb' 0 1) (a.extractLsb' 0 3) := by
  rw [iControl, seqField_eq, pfField_eq, seqField_eq, ← or_shifts_eq_iLayout]
  rfl

theorem sControl_eq (a b c : Byte) :
    sControl a b c = suLayout (c.extractLsb' 0 3) (b.extractLsb' 0 1) (a.extractLsb' 0 2) 1 := by
  rw [sControl, scodeField_eq, pfField_eq, seqField_eq, ← or_shifts_eq_suLayout]
  rfl

theorem uControl_eq (m1 : BitVec 2) (m2 : BitVec 3) (b : Byte) :
    uControl (m1.setWidth 8) (m2.setWidth 8) b = suLayout m2 (b.extractLsb' 0 1) m1 3 := by
  rw [uControl, pfField_eq, ← or_shifts_eq_suLayout]
  rfl

/-! ## The modifier table -/

/-- A pair of modifier fields as the bytes UTABLE holds (R85). -/
def modifierBytes (p : BitVec 2 × BitVec 3) : Byte × Byte := (p.1.setWidth 8, p.2.setWidth 8)

theorem uTable_eq_map : uTable = uPairs.map modifierBytes := rfl

theorem modifierBytes_injective : Function.Injective modifierBytes := by
  rintro ⟨m1, m2⟩ ⟨n1, n2⟩ h
  obtain ⟨h1, h2⟩ := Prod.mk.inj h
  have hm1 : m1 = n1 := by simpa using congrArg (BitVec.setWidth 2) h1
  have hm2 : m2 = n2 := by simpa using congrArg (BitVec.setWidth 3) h2
  rw [hm1, hm2]

/-- The search of UTABLE is the search of the pairs themselves. -/
theorem uTable_findIdx? (p : BitVec 2 × BitVec 3) :
    uTable.findIdx? (· == modifierBytes p) = uPairs.findIdx? (· == p) := by
  have hpred : (fun q => q == modifierBytes p) ∘ modifierBytes = fun q => q == p := by
    funext q
    rw [Function.comp_apply, Bool.eq_iff_iff, beq_iff_eq, beq_iff_eq, modifierBytes_injective.eq_iff]
  rw [uTable_eq_map, List.findIdx?_map, hpred]

theorem uPairs_nodup : uPairs.Nodup := by decide

section ucodeOf
variable {m1 : BitVec 2} {m2 : BitVec 3}

theorem ucodeOf_of_pair {k : Nat} (h : uPairs[k]? = some (m1, m2)) :
    ucodeOf (m1.setWidth 8) (m2.setWidth 8) = BitVec.ofNat 8 k := by
  obtain ⟨hk, hget⟩ := List.getElem?_eq_some_iff.mp h
  have hfind : uTable.findIdx? (· == modifierBytes (m1, m2)) = some k := by
    rw [uTable_findIdx?, List.findIdx?_eq_some_iff_getElem]
    refine ⟨hk, beq_iff_eq.mpr hget, fun j hj hbeq => ?_⟩
    have hne : uPairs[j] ≠ uPairs[k] := List.pairwise_iff_getElem.mp uPairs_nodup j k (Nat.lt_trans hj hk) hk hj
    exact hne ((beq_iff_eq.mp hbeq).trans hget.symm)
  rw [modifierBytes] at hfind
  rw [ucodeOf, hfind]

theorem ucodeOf_of_notMem (h : (m1, m2) ∉ uPairs) : ucodeOf (m1.setWidth 8) (m2.setWidth 8) = 0xFF := by
  have hfind : uTable.findIdx? (· == modifierBytes (m1, m2)) = none := by
    rw [uTable_findIdx?, List.findIdx?_eq_none_iff]
    exact fun q hq => beq_false_of_ne fun heq => h (heq ▸ hq)
  rw [modifierBytes] at hfind
  rw [ucodeOf, hfind]

end ucodeOf

/-! ## The builders -/

section build
variable (s : State) (a b c : Byte)

theorem exec_buildI : exec (.buildI a b c) s
    = .next (s.loadControl (iLayout (c.extractLsb' 0 3) (b.extractLsb' 0 1) (a.extractLsb' 0 3))) := by
  rw [← iControl_eq]
  rfl

theorem exec_buildS : exec (.buildS a b c) s
    = .next (s.loadControl (suLayout (c.extractLsb' 0 3) (b.extractLsb' 0 1) (a.extractLsb' 0 2) 1)) := by
  rw [← sControl_eq]
  rfl

variable {a}

theorem exec_buildU_of_pair {m1 : BitVec 2} {m2 : BitVec 3} (h : uPairs[a.toNat]? = some (m1, m2)) :
    exec (.buildU a b) s = .next (s.loadControl (suLayout m2 (b.extractLsb' 0 1) m1 3)) := by
  have hrow : uTable[a.toNat]? = some (m1.setWidth 8, m2.setWidth 8) := by
    rw [uTable_eq_map, List.getElem?_map, h]
    rfl
  simp only [exec, execBuildU, hrow, uControl_eq]

theorem exec_buildU_of_noRow (h : 6 < a.toNat) :
    exec (.buildU a b) s = .next (s.answerError .unknownModifierCode) := by
  have hrow : uTable[a.toNat]? = none := List.getElem?_eq_none h
  simp only [exec, execBuildU, hrow]
  rfl

/-- Every ucode up to 6 has a pair (R85). -/
theorem exists_pair_of_le (h : a.toNat ≤ 6) : ∃ m1 m2, uPairs[a.toNat]? = some (m1, m2) :=
  ⟨_, _, List.getElem?_eq_getElem (Nat.lt_succ_of_le h)⟩

end build

/-- Settles O13: the byte is the I-frame layout of the truncated operands, from which each field reads back. -/
theorem buildIPacksTheIFrameByte : Obligations.BuildIPacksTheIFrameByte :=
  ⟨fun a b c => decode_wordABC (.buildI a b c) c b a (by simp [Instr.withOperandsOf]),
    fun s a b c => ⟨_, exec_buildI s a b c, iLayout_bit0 .., iLayout_ns .., iLayout_pf .., iLayout_nr ..⟩⟩

/-- Settles O14: the byte is the S-frame layout of the truncated operands, from which each field reads back. -/
theorem buildSPacksTheSFrameByte : Obligations.BuildSPacksTheSFrameByte :=
  ⟨fun a b c => decode_wordABC (.buildS a b c) c b a (by simp [Instr.withOperandsOf]),
    fun s a b c => ⟨_, exec_buildS s a b c, suLayout_low .., suLayout_code .., suLayout_pf .., suLayout_high ..⟩⟩

/-- Settles O15: the table has a row for each ucode up to 6 and for no other. -/
theorem buildUPacksTheModifier : Obligations.BuildUPacksTheModifier := by
  refine ⟨fun a b c => decode_wordABC (.buildU a b) c b a (by simp [Instr.withOperandsOf]),
    fun s a b => ⟨exec_buildU_of_noRow s b, fun ha => ?_⟩⟩
  obtain ⟨m1, m2, hpair⟩ := exists_pair_of_le ha
  exact ⟨m1, m2, _, hpair, exec_buildU_of_pair s b hpair,
    suLayout_low .., suLayout_code .., suLayout_pf .., suLayout_high ..⟩

/-! ## CTRL_PARSE -/

/-- The kind and P/F share the low byte of the value, P/F above the kind (R137). -/
theorem parseValue_eq_wordABC (kind pf : BitVec 4) (f1 f2 uc : Byte) :
    parseValue (kind.setWidth 8) (pf.setWidth 8) f1 f2 uc
      = wordABC uc f2 f1 (pf.setWidth 8 <<< 4 ||| kind.setWidth 8) := by
  have hpf : zext32 (pf.setWidth 8 <<< 4 : Byte) = zext32 (pf.setWidth 8 : Byte) <<< 4 := by
    apply BitVec.eq_of_toNat_eq
    simp only [zext32, BitVec.toNat_shiftLeft, BitVec.toNat_setWidth, Nat.shiftLeft_eq]
    omega
  have hlow : zext32 (pf.setWidth 8 <<< 4 ||| kind.setWidth 8 : Byte)
      = zext32 (kind.setWidth 8 : Byte) ||| zext32 (pf.setWidth 8 : Byte) <<< 4 := by
    rw [← hpf, BitVec.or_comm]
    exact BitVec.setWidth_or
  rw [← zext32_or_shifts, parseValue, hlow]

section parse
variable (s : State) {x : Byte}

/-- The bits CTRL_PARSE tests are the low two (R80). -/
theorem getLsbD_of_low {low : BitVec 2} (h : x.extractLsb' 0 2 = low) :
    x.getLsbD 0 = low.getLsbD 0 ∧ x.getLsbD 1 = low.getLsbD 1 := by
  subst h
  exact ⟨by simp, by simp⟩

theorem parseControl_I (h : x.extractLsb' 0 1 = 0) :
    parseControl x = parseValue 0 (ctrlPf x) (ctrlNs x) (ctrlHigh x) 0xFF := by
  have hbit : x.getLsbD 0 = false := by
    rw [BitVec.getLsbD_eq_extractLsb', h]
    rfl
  exact if_pos hbit

theorem parseControl_S (h : x.extractLsb' 0 2 = 1) :
    parseControl x = parseValue 1 (ctrlPf x) (ctrlCode x) (ctrlHigh x) 0xFF := by
  obtain ⟨hbit0, hbit1⟩ := getLsbD_of_low h
  rw [parseControl, hbit0, hbit1]
  rfl

theorem parseControl_U (h : x.extractLsb' 0 2 = 3) :
    parseControl x = parseValue 2 (ctrlPf x) (ctrlCode x) (ctrlHigh x) (ucodeOf (ctrlCode x) (ctrlHigh x)) := by
  obtain ⟨hbit0, hbit1⟩ := getLsbD_of_low h
  rw [parseControl, hbit0, hbit1]
  rfl

/-- Every class answers P/F and bits 7..5 in the same places (R137). -/
theorem parsesTo_of_value {kind : BitVec 4} {f1 uc : Byte}
    (h : parseControl x = parseValue (kind.setWidth 8) (ctrlPf x) f1 (ctrlHigh x) uc) :
    ParsesTo s x kind ((x.extractLsb' 4 1).setWidth 4) f1 ((x.extractLsb' 5 3).setWidth 8) uc := by
  have hpf : ctrlPf x = ((x.extractLsb' 4 1).setWidth 4).setWidth 8 := by
    rw [ctrlPf_eq, BitVec.setWidth_setWidth (by decide)]
  rw [hpf, ctrlHigh_eq, parseValue_eq_wordABC] at h
  rw [ParsesTo, ← h]
  rfl

theorem parsesTo_I (h : x.extractLsb' 0 1 = 0) :
    ParsesTo s x 0 ((x.extractLsb' 4 1).setWidth 4) ((x.extractLsb' 1 3).setWidth 8) ((x.extractLsb' 5 3).setWidth 8)
      0xFF :=
  ctrlNs_eq x ▸ parsesTo_of_value s (kind := 0) (parseControl_I h)

theorem parsesTo_S (h : x.extractLsb' 0 2 = 1) :
    ParsesTo s x 1 ((x.extractLsb' 4 1).setWidth 4) ((x.extractLsb' 2 2).setWidth 8) ((x.extractLsb' 5 3).setWidth 8)
      0xFF :=
  ctrlCode_eq x ▸ parsesTo_of_value s (kind := 1) (parseControl_S h)

theorem parsesTo_U (h : x.extractLsb' 0 2 = 3) :
    ParsesTo s x 2 ((x.extractLsb' 4 1).setWidth 4) ((x.extractLsb' 2 2).setWidth 8) ((x.extractLsb' 5 3).setWidth 8)
      (ucodeOf ((x.extractLsb' 2 2).setWidth 8) ((x.extractLsb' 5 3).setWidth 8)) := by
  have hparse := parsesTo_of_value s (kind := 2) (parseControl_U h)
  rwa [ctrlCode_eq, ctrlHigh_eq] at hparse

end parse

/-- Settles O16: the two tests on the low bits give the class, and the search of the table gives the ucode. -/
theorem ctrlParseUnpacksEveryByte : Obligations.CtrlParseUnpacksEveryByte := by
  refine ⟨fun a b c => decode_wordABC (.ctrlParse a) c b a (by simp [Instr.withOperandsOf]),
    fun s x => ⟨parsesTo_I s, parsesTo_S s, fun h => ?_⟩⟩
  exact ⟨_, parsesTo_U s h, fun k hk => ucodeOf_of_pair hk, fun hno => ucodeOf_of_notMem hno⟩

/-! ## What the builders write, parsed -/

section built
variable (s : State) {high : BitVec 3} {pf : BitVec 1} {code : BitVec 2}

theorem parsesTo_suLayout_S :
    ParsesTo s (suLayout high pf code 1) 1 (pf.setWidth 4) (code.setWidth 8) (high.setWidth 8) 0xFF := by
  have h := parsesTo_S s (suLayout_low high pf code 1)
  rwa [suLayout_pf, suLayout_code, suLayout_high] at h

theorem parsesTo_suLayout_U {uc : Byte} (huc : uPairs[uc.toNat]? = some (code, high)) :
    ParsesTo s (suLayout high pf code 3) 2 (pf.setWidth 4) (code.setWidth 8) (high.setWidth 8) uc := by
  have h := parsesTo_U s (suLayout_low high pf code 3)
  rwa [suLayout_pf, suLayout_code, suLayout_high, ucodeOf_of_pair huc, BitVec.ofNat_toNat, BitVec.setWidth_eq] at h

end built

/-- The two bits by which the byte BUILD_I makes is classified: the low bit of ns above a set bit 0 (R132). -/
theorem iLayout_truncated_low (nr : BitVec 3) (pf : BitVec 1) (a : Byte) :
    (iLayout nr pf (a.extractLsb' 0 3)).extractLsb' 0 2 = a.extractLsb' 0 1 ++ 1#1 := by
  rw [iLayout_low, BitVec.extractLsb'_extractLsb'_of_le (by decide)]

/-- Settles O17: each builder's layout fixes the two bits that classify its byte, and the fields read back. -/
theorem builtControlBytesParse : Obligations.BuiltControlBytesParse := by
  refine fun s a b c => ⟨⟨_, exec_buildI s a b c, iLayout_bit0 .., fun ha => ?even, fun ha => ?odd⟩,
    ⟨_, exec_buildS s a b c, suLayout_low .., parsesTo_suLayout_S _⟩, fun ha => ?ucode⟩
  case even => exact ⟨_, _, _, _, parsesTo_S _ ((iLayout_truncated_low ..).trans (ha ▸ rfl))⟩
  case odd => exact ⟨_, _, _, _, parsesTo_U _ ((iLayout_truncated_low ..).trans (ha ▸ rfl))⟩
  case ucode =>
    obtain ⟨m1, m2, hpair⟩ := exists_pair_of_le ha
    exact ⟨_, exec_buildU_of_pair s b hpair, suLayout_low .., _, _, parsesTo_suLayout_U _ hpair⟩

end Sys2Proof.Machine
end

section
/-! PROOFS. The statements about the CRC-16/ISO-HDLC generator (42_checksum.md): its reflected form, and what CRC_BUF
answers. -/

namespace Sys2Proof

/-- The `op` selects the command, whose operands are `n` and C (R71 to R73). -/
theorem decode_wordNC (i : Instr) (c : Byte) (n : Half)
    (h : i.withOperandsOf (wordNC c n (opcode i)) = i) : decode (wordNC c n (opcode i)) = .ok i := by
  rw [decode_of_opcode (opField_wordNC ..), h]

end Sys2Proof

namespace Sys2Proof.Machine

/-! ## The register with its bits reversed -/

theorem rev16_xor (x y : Half) : rev16 (x ^^^ y) = rev16 x ^^^ rev16 y := by
  apply BitVec.eq_of_getLsbD_eq
  intro i hi
  simp only [rev16, BitVec.getLsbD_reverse, BitVec.getLsbD_xor, BitVec.getMsbD_xor]

theorem rev16_shiftLeft (x : Half) (k : Nat) : rev16 (x <<< k) = rev16 x >>> k := by
  apply BitVec.eq_of_getLsbD_eq
  intro i hi
  simp only [rev16, BitVec.getLsbD_reverse, BitVec.getLsbD_ushiftRight, BitVec.getMsbD_shiftLeft, Nat.add_comm]

/-- A byte that R152 reverses into the high byte stands unreversed in the low byte of the reversed register. -/
theorem rev16_zext16_rev8 (v : Byte) : rev16 (zext16 (rev8 v) <<< 8) = zext16 v := by
  apply BitVec.eq_of_getLsbD_eq
  intro i hi
  simp [rev16, zext16, rev8, BitVec.getElem_reverse, BitVec.getMsbD_reverse, hi]

/-! ## The reflected generator -/

/-- The top bit, the left shift and the polynomial of R152, reversed, are the low bit, the right shift and the polynomial of
R157. -/
theorem rev16_crcShift (r : Half) : rev16 (crcShift r) = reflectedShift (rev16 r) := by
  have hbit : (rev16 r).getLsbD 0 = r.getLsbD 15 := BitVec.getLsbD_reverse
  have hpoly : rev16 0x1021 = 0x8408 := by decide
  rw [crcShift, reflectedShift, hbit]
  split
  · rw [rev16_xor, rev16_shiftLeft, hpoly]
  · exact rev16_shiftLeft r 1

theorem rev16_repeat_crcShift (k : Nat) (r : Half) :
    rev16 (Nat.repeat crcShift k r) = Nat.repeat reflectedShift k (rev16 r) := by
  induction k with
  | zero => rfl
  | succ k ih => rw [Nat.repeat, Nat.repeat, rev16_crcShift, ih]

theorem rev16_crcUpdate (r : Half) (v : Byte) :
    rev16 (crcUpdate r v) = Nat.repeat reflectedShift 8 (rev16 r ^^^ zext16 v) := by
  rw [crcUpdate, rev16_repeat_crcShift, rev16_xor, rev16_zext16_rev8]

/-- Settles O19: the reflected register is the reversed one before the first byte and stays so with every byte. -/
theorem reflectedCrcAgrees : Obligations.ReflectedCrcAgrees := by
  intro xs
  have hinit : rev16 crcInit = 0xFFFF := by decide
  rw [crc16Reflected, crc16, crcFinal, ← hinit, List.foldl_hom rev16 fun r v => (rev16_crcUpdate r v).symm]

/-! ## CRC_BUF -/

section crcBuf
variable (s : State) {n : Half}

theorem exec_crcBuf_refused (h : s.params.bufSize < n.toNat) :
    exec (.crcBuf n) s = .next (s.answerError .invalidArgument) :=
  congrArg Host.Outcome.next (if_pos h)

theorem exec_crcBuf_room (h : n.toNat ≤ s.params.bufSize) :
    exec (.crcBuf n) s = .next (s.drawCrc.answerOk (zext32 (crc16 (s.buf.readList 0 n.toNat)))) :=
  congrArg Host.Outcome.next (if_neg (Nat.not_lt.mpr h))

end crcBuf

theorem crc16_nil : crc16 [] = 0 := by decide

/-- Settles O18: the count is compared with BUF_SIZE, and no bytes are read for a count of 0. -/
theorem crcBufHashesTheBuffer : Obligations.CrcBufHashesTheBuffer := by
  refine ⟨fun n c => decode_wordNC (.crcBuf n) c n (by simp [Instr.withOperandsOf]),
    fun s n => ⟨exec_crcBuf_refused s, fun hn => ⟨_, _, _, exec_crcBuf_room s hn, rfl, ?_⟩⟩⟩
  rintro rfl
  exact crc16_nil

end Sys2Proof.Machine
end

section
/-! PROOFS. The statements about the encoder (43_encoder.md): the length of the encoded frame, the three ends of ENCODE, and the
per-byte encoder. -/

namespace Sys2Proof.Machine

/-! ## The length of the encoded frame -/

/-- ENCODE stuffs the address, the control byte, the info bytes and the two FCS bytes (R171). -/
theorem State.Inv.stuffedContent_length {s : State} (h : s.Inv) :
    (stuffedContent s.params.fcsScope s.fr).length = s.fr.infoLen.toNat + 4 := by
  obtain ⟨-, hlength, hle, -, -⟩ := h
  simp [stuffedContent, Frame.infoPrefix, hlength, hle]

theorem escaped_of_not_unescaped {v : Byte} (h : ¬ Unescaped v) : v = flagByte ∨ v = escByte :=
  (Decidable.not_and_iff_not_or_not.mp h).imp Decidable.not_not.mp Decidable.not_not.mp

/-- Settles O20: E counts some of the info_len + 4 stuffed bytes, and all of them when each is escaped. -/
theorem encodedLengthIsK : Obligations.EncodedLengthIsK := by
  intro s hinv
  have hK : s.encodedLength = 6 + s.fr.infoLen.toNat + escapedCount s.params.fcsScope s.fr := rfl
  have hcontent := hinv.stuffedContent_length
  have hsome : escapedCount s.params.fcsScope s.fr ≤ (stuffedContent s.params.fcsScope s.fr).length := List.countP_le_length
  refine ⟨hinv.wireFrame_length, hinv.wireFrame_length, by omega, by omega, fun hall => ?_⟩
  have hevery : escapedCount s.params.fcsScope s.fr = (stuffedContent s.params.fcsScope s.fr).length :=
    List.countP_eq_length.mpr fun v hv => decide_eq_true (escaped_of_not_unescaped (hall v hv))
  omega

/-! ## The ends of ENCODE -/

section encode
variable {s : State} {n : Half} (hinv : s.Inv) (hn : n.toNat ≤ s.params.bufSize)
include hinv hn

/-- ENCODE of a frame that fits under the capacity (R177, R178). -/
theorem exec_encode_fits (hfit : s.encodedLength ≤ n.toNat) :
    exec (.encode n) s = .next (s.encodeOk (s.buf.writeList 0 (wireFrame s.params.fcsScope s.fr)) s.encodedLength) := by
  have hexec := execEncode_eq s n hn
  rwa [hinv.wireFrame_length, if_neg (Nat.not_lt.mpr hfit)] at hexec

/-- ENCODE of a frame that does not fit (R177, R179). -/
theorem exec_encode_tooSmall (hfull : n.toNat < s.encodedLength) :
    exec (.encode n) s = .next (s.encodeFailed n.toNat .bufferTooSmall) := by
  have hexec := execEncode_eq s n hn
  rwa [hinv.wireFrame_length, if_pos hfull] at hexec

end encode

/-- Settles O21, by the two ends of ENCODE within BUF_SIZE. -/
theorem encodeSucceedsExactlyFromK : Obligations.EncodeSucceedsExactlyFromK :=
  fun _ _ hinv hn =>
    ⟨fun hfit => ⟨_, exec_encode_fits hinv hn hfit, rfl⟩, fun hfull => ⟨_, exec_encode_tooSmall hinv hn hfull, rfl⟩⟩

/-- Settles O22: the bytes written from index 0 on are the encoded frame, which is K bytes long. -/
theorem encodeWritesTheWireFrame : Obligations.EncodeWritesTheWireFrame := by
  intro s n hinv hn hfit
  refine ⟨_, _, _, _, exec_encode_fits hinv hn hfit, ?_, fun i hi => ?_⟩
  · rw [← hinv.wireFrame_length]
    exact Memory.readList_writeList ..
  · exact Memory.read_writeList_outside _ _ _ (.inr (by rwa [hinv.wireFrame_length, Nat.zero_add]))

/-- Byte `i` of a run of drawn bytes is the run's draw number `i`. -/
theorem drawBytes_getElem? (k : Nat) {count i : Nat} (h : i < count) :
    (drawBytes k count)[i]? = some (drawByte (k + i)) := by
  simp [drawBytes, h]

/-- Settles O23: the drawn bytes are written from index 0 on, and the working state takes the draws after theirs. -/
theorem encodeFailureDrawsTheCapacity : Obligations.EncodeFailureDrawsTheCapacity := by
  intro s n hinv hn hfull
  refine ⟨_, _, _, _, s.draws, exec_encode_tooSmall hinv hn hfull, Nat.le_refl _, Nat.le_add_right _ 4, fun i hi => ?_,
    fun i hi => ?_⟩
  · exact Memory.read_writeList_zero _ (drawBytes_getElem? _ hi)
  · exact Memory.read_writeList_outside _ _ _ (.inr (by simpa using hi))

/-- Settles O24: no ENCODE writes at or above its capacity, and one whose capacity is above BUF_SIZE writes nothing. -/
theorem encodeNeverWritesAtOrAboveCap : Obligations.EncodeNeverWritesAtOrAboveCap := by
  intro s t n h
  obtain ⟨-, -, habove, -⟩ := onlyNamedCommandsWriteTheRest (.encode n) s t h
  refine ⟨habove, fun i hi => ?_⟩
  rcases Nat.lt_or_ge s.params.bufSize n.toNat with hn | hn
  · cases (execEncode_refused hn).symm.trans h
    rfl
  · exact habove i (Nat.le_trans hn hi)

/-! ## The per-byte encoder -/

/-- A run of writes over another that it covers leaves no trace of it. -/
theorem Memory.writeList_writeList_covered {m : Memory} (h : m.wf = true) {i : Nat} {us vs : List Byte}
    (hcover : i + us.length ≤ vs.length) : (m.writeList i us).writeList 0 vs = m.writeList 0 vs := by
  refine Memory.ext_of_lookup (wf_writeList (wf_writeList h _ _) _ _) (wf_writeList h _ _) (by simp) fun j => ?_
  simp only [lookupCell_writeList, Nat.zero_le, if_true, Nat.sub_zero]
  rcases Nat.lt_or_ge j vs.length with hj | hj
  · simp [hj]
  · have hbeyond : us[j - i]? = none := List.getElem?_eq_none (by omega)
    simp [hbeyond]

/-- A write that succeeds fits under the capacity and leaves its bytes from the write pointer on (R111, R172). -/
theorem performWrite_ok {cap wp wp' : Nat} {w : WireWrite} {m m' : Memory} (h : performWrite cap w m wp = .ok (m', wp')) :
    wp + (wireBytes w).length ≤ cap ∧ m' = m.writeList wp (wireBytes w) := by
  rw [performWrite_eq] at h
  split at h
  · cases h
  · cases h
    exact ⟨Nat.le_of_not_lt ‹_›, rfl⟩

/-- The state a run ends in that has the writes `ws` still to perform: that of ENCODE (R178, R179). -/
def State.encodeEnd (s : State) (cap : Nat) (ws : List WireWrite) : State :=
  match performWrites cap ws s.buf s.enc.wp with
  | .error e => s.encodeFailed cap e
  | .ok (m, wp) => s.encodeOk m wp

/-- ENCODE ends where its whole plan leads from its start (R170). -/
theorem execEncode_eq_encodeEnd {s : State} {n : Half} (hn : n.toNat ≤ s.params.bufSize) :
    execEncode n s = .next (s.encodeBegin.encodeEnd n.toNat (encodePlan s.params.fcsScope s.fr)) := by
  simp only [execEncode, State.encodeEnd, Nat.not_lt.mpr hn, if_false, State.encodeBegin_buf, State.encodeBegin_enc]
  rcases performWrites n.toNat (encodePlan s.params.fcsScope s.fr) s.buf 0 with e | ⟨m, wp⟩
  · rfl
  · rfl

/-- A write that fits leaves the end as it was: a run that fails later draws over every byte written before, and every end
draws the CRC register and the encoder's working state. -/
theorem State.encodeEnd_cons {s : State} (hwf : s.buf.wf = true) {cap wp : Nat} {w : WireWrite} {m : Memory}
    (hw : performWrite cap w s.buf s.enc.wp = .ok (m, wp)) (crc : Half) (next : EncPhase) (ii : Nat)
    (ws : List WireWrite) :
    s.encodeEnd cap (w :: ws)
      = State.encodeEnd { s with buf := m, crc := crc, enc := { phase := next, wp := wp, ii := ii } } cap ws := by
  obtain ⟨hfit, rfl⟩ := performWrite_ok hw
  simp only [State.encodeEnd, performWrites, hw]
  split
  · simp only [State.encodeFailed, State.drawBuf]
    rw [Memory.writeList_writeList_covered hwf (by rwa [drawBytes_length])]
    rfl
  · rfl

/-- The writes of the content bytes `vs`, each fed to the CRC register, then of the FCS it holds and the closing flag (R171,
R181). -/
def contentWrites (scope : FcsScope) : Half → List Byte → List WireWrite
  | crc, [] => [.stuffed (fcsHigh (crcFinal crc)), .stuffed (fcsLow (crcFinal crc)), .raw flagByte]
  | crc, v :: vs => .stuffed v :: contentWrites scope ((fcsUnit scope v).foldl crcUpdate crc) vs

/-- The FCS written is that of the bytes all the content contributes (R155). -/
theorem contentWrites_eq (scope : FcsScope) (crc : Half) (vs : List Byte) :
    contentWrites scope crc vs
      = vs.map .stuffed ++ contentWrites scope ((vs.flatMap (fcsUnit scope)).foldl crcUpdate crc) [] := by
  induction vs generalizing crc with
  | nil => rfl
  | cons v vs ih => simp only [contentWrites, ih, List.map_cons, List.cons_append, List.flatMap_cons, List.foldl_append]

/-- The writes the per-byte encoder has still to perform (R181). -/
def State.writesLeft (s : State) : List WireWrite :=
  let content := contentWrites s.params.fcsScope s.crc
  match s.enc.phase with
  | .startFlag => .raw flagByte :: content (s.fr.address :: s.fr.control :: s.fr.infoPrefix)
  | .address => content (s.fr.address :: s.fr.control :: s.fr.infoPrefix)
  | .control => content (s.fr.control :: s.fr.infoPrefix)
  | .info => content (s.fr.infoAt s.enc.ii :: s.fr.infoPrefix.drop (s.enc.ii + 1))
  | .fcsHi => content []
  | .fcsLo => [.stuffed (fcsLow (crcFinal s.crc)), .raw flagByte]
  | .stopFlag => [.raw flagByte]
  | .done => []

/-- At its start the per-byte encoder has ENCODE's plan before it (R171, R181). -/
theorem State.encodeBegin_writesLeft (s : State) : s.encodeBegin.writesLeft = encodePlan s.params.fcsScope s.fr :=
  congrArg (WireWrite.raw flagByte :: ·) (contentWrites_eq ..)

/-- The info byte the per-byte encoder reads is the next one of FR.info[0..FR.info_len). -/
theorem Frame.infoPrefix_getElem {f : Frame} {ii : Nat} (h : ii < f.infoPrefix.length) :
    f.infoPrefix[ii] = f.infoAt ii := by
  have h' : ii < f.info.length := Nat.lt_of_lt_of_le h (List.length_take_le' ..)
  simp [Frame.infoPrefix, Frame.infoAt, h']

/-- In the phase that follows a content byte, the writes left are those of the info bytes from index `ii` on (R181). -/
theorem writesLeft_encodeNext {s t : State} {ii : Nat} (hphase : t.enc.phase = encodeNext s ii) (hii : t.enc.ii = ii)
    (hfr : t.fr = s.fr) : t.writesLeft = contentWrites t.params.fcsScope t.crc (s.fr.infoPrefix.drop ii) := by
  rw [encodeNext] at hphase
  split at hphase
  · rename_i hmore
    rw [List.drop_eq_getElem_cons hmore, Frame.infoPrefix_getElem]
    simp only [State.writesLeft, hphase, hii, hfr]
  · rename_i hdone
    rw [List.drop_eq_nil_of_le (Nat.le_of_not_lt hdone)]
    simp only [State.writesLeft, hphase]

/-- A step of the per-byte encoder performs the first of the writes left and leaves the others (R181). -/
theorem encodeStep_of_writesLeft {s : State} {w : WireWrite} {ws : List WireWrite} (h : s.writesLeft = w :: ws) (cap : Nat) :
    ∃ (crc : Half) (next : EncPhase) (ii : Nat),
      encodeStep cap s = State.encodeWrite { s with crc := crc, enc := { s.enc with ii := ii } } cap w next
        ∧ ∀ (m : Memory) (wp : Nat),
          State.writesLeft { s with buf := m, crc := crc, enc := { phase := next, wp := wp, ii := ii } } = ws := by
  rw [State.writesLeft] at h
  cases hphase : s.enc.phase with
  | startFlag | address | fcsHi | fcsLo | stopFlag =>
    simp only [hphase] at h
    rw [encodeStep, hphase]
    cases h
    exact ⟨_, _, _, rfl, fun _ _ => rfl⟩
  | control | info =>
    simp only [hphase] at h
    rw [encodeStep, hphase]
    cases h
    exact ⟨_, _, _, rfl, fun _ _ => writesLeft_encodeNext (s := s) rfl rfl rfl⟩
  | done =>
    simp only [hphase] at h
    cases h

/-- The per-byte encoder ends in the state its writes left lead to: one step for each write, and the last for Done (R181). -/
theorem runSteps_encodeStep {s : State} (hwf : s.buf.wf = true) {ws : List WireWrite} (h : s.writesLeft = ws) (cap : Nat) :
    runSteps (encodeStep cap) (ws.length + 1) s = some (s.encodeEnd cap ws) := by
  induction ws generalizing s with
  | nil =>
    have hdone : s.enc.phase = .done := by
      cases hphase : s.enc.phase with
      | done => rfl
      | _ => simp [State.writesLeft, contentWrites, hphase] at h
    exact runSteps_ended _ _ (by simp [encodeStep, hdone, State.encodeEnd, performWrites])
  | cons w ws ih =>
    obtain ⟨crc, next, ii, hstep, hleft⟩ := encodeStep_of_writesLeft h cap
    rw [State.encodeWrite] at hstep
    rcases hw : performWrite cap w s.buf s.enc.wp with e | ⟨m, wp⟩
    · simp only [hw] at hstep
      rw [runSteps_ended _ _ hstep]
      simp only [State.encodeEnd, performWrites, hw]
      rfl
    · simp only [hw] at hstep
      rw [List.length_cons, runSteps_running _ _ hstep, State.encodeEnd_cons hwf hw crc next ii]
      obtain ⟨-, rfl⟩ := performWrite_ok hw
      exact ih (Memory.wf_writeList hwf ..) (hleft _ _)

/-- ENCODE has six writes beside those of the info bytes (R170). -/
theorem State.Inv.encodePlan_length {s : State} (h : s.Inv) :
    (encodePlan s.params.fcsScope s.fr).length = s.fr.infoLen.toNat + 6 := by
  obtain ⟨-, hlength, hle, -, -⟩ := h
  simp [encodePlan, Frame.infoPrefix, hlength, hle]

/-- Settles O27: from its start the per-byte encoder has ENCODE's plan before it, and both end where that leads. -/
theorem perByteEncodeIsEncode : Obligations.PerByteEncodeIsEncode := by
  intro s n hinv
  rcases Nat.lt_or_ge s.params.bufSize n.toNat with hn | hn
  · exact ⟨_, if_pos hn, execEncode_refused hn⟩
  · have hlength := hinv.encodePlan_length
    obtain ⟨-, -, -, hwf, -⟩ := hinv
    have hrun := runSteps_encodeStep (s := s.encodeBegin) hwf s.encodeBegin_writesLeft n.toNat
    rw [hlength] at hrun
    exact ⟨_, (if_neg (Nat.not_lt.mpr hn)).trans hrun, execEncode_eq_encodeEnd hn⟩

end Sys2Proof.Machine
end

section
/-! PROOFS. The statements about the decoder (44_decoder.md): the errors of each state, the frames DECODE accepts, what it makes
of an encoded frame and of a cut one, and the per-byte decoder. -/

namespace Sys2Proof.Machine

/-! ## Units -/

/-- The bytes `u` are one unit of the wire, which unstuffs to `v`: a byte other than the escape, or an escape pair (R89, R112). -/
inductive WireUnit : List Byte → Byte → Prop
  | plain {v : Byte} (h : v ≠ escByte) : WireUnit [v] v
  | pair (y : Byte) : WireUnit [escByte, y] (y ^^^ escXor)

section WireUnit
variable {u : List Byte} {v : Byte}

theorem WireUnit.decodeByte (h : WireUnit u v) (r : List Byte) : decodeByte (u ++ r) = .ok (v, r) := by
  cases h with
  | plain h => exact decodeByte_plain h r
  | pair y => exact decodeByte_escape y r

theorem WireUnit.decodeByte_self (h : WireUnit u v) : Machine.decodeByte u = .ok (v, []) := by
  rw [← h.decodeByte [], List.append_nil]

theorem WireUnit.unstuffAll (h : WireUnit u v) (r : List Byte) :
    unstuffAll (u ++ r) = (unstuffAll r).map (v :: ·) := by
  cases h with
  | plain h => exact unstuffAll_plain h r
  | pair y => exact unstuffAll_escape y r

theorem WireUnit.length_pos (h : WireUnit u v) : 0 < u.length := by
  cases h <;> exact Nat.succ_pos _

/-- A decoded byte is a unit at the front of the input (R112). -/
theorem exists_wireUnit_of_decodeByte {r r' : List Byte} (h : decodeByte r = .ok (v, r')) :
    ∃ u, WireUnit u v ∧ r = u ++ r' := by
  obtain ⟨hv, rfl⟩ | ⟨y, rfl, rfl⟩ := decodeByte_ok h
  · exact ⟨_, .plain hv, rfl⟩
  · exact ⟨_, .pair y, rfl⟩

/-- The values of a sequence start with that of its first unit (R89). -/
theorem exists_wireUnit_of_unstuffAll {body vs : List Byte} (h : unstuffAll body = some (v :: vs)) :
    ∃ u rest, WireUnit u v ∧ body = u ++ rest ∧ unstuffAll rest = some vs := by
  rcases hbyte : decodeByte body with e | ⟨w, rest⟩
  · obtain ⟨rfl, -⟩ | ⟨rfl, -⟩ := decodeByte_error hbyte
    · cases h
    · cases h
  · obtain ⟨u, hu, rfl⟩ := exists_wireUnit_of_decodeByte hbyte
    rw [hu.unstuffAll, Option.map_eq_some_iff] at h
    obtain ⟨vs', hrest, hvs⟩ := h
    cases hvs
    exact ⟨u, rest, hu, rfl, hrest⟩

/-- An unstuffing that consumes its whole input has a unit for it (R112). -/
theorem wireUnit_of_unstuff (h : unstuff u = .ok (v, u.length)) : WireUnit u v := by
  have hbyte : decodeByte u = .ok (v, []) := by simp [decodeByte, h]
  obtain ⟨u', hu', rfl⟩ := exists_wireUnit_of_decodeByte hbyte
  rwa [List.append_nil]

/-- The stuffed form of a byte is a unit for it (R113). -/
theorem wireUnit_stuffBytes (v : Byte) : WireUnit (stuffBytes v) v := by
  have h := unstuffInvertsStuff v []
  rw [List.append_nil] at h
  exact wireUnit_of_unstuff h

end WireUnit

/-- Only the empty sequence has no value (R89). -/
theorem eq_nil_of_unstuffAll {body : List Byte} (h : unstuffAll body = some []) : body = [] := by
  rcases hbyte : decodeByte body with e | ⟨w, rest⟩
  · obtain ⟨rfl, -⟩ | ⟨rfl, -⟩ := decodeByte_error hbyte
    · rfl
    · cases h
  · obtain ⟨u, hu, rfl⟩ := exists_wireUnit_of_decodeByte hbyte
    simp [hu.unstuffAll] at h

/-- The values of a sequence of whole units come before those of what follows it (R89). -/
theorem unstuffAll_append {xs us : List Byte} (h : unstuffAll xs = some us) (ys : List Byte) :
    unstuffAll (xs ++ ys) = (unstuffAll ys).map (us ++ ·) := by
  induction us generalizing xs with
  | nil => simp [eq_nil_of_unstuffAll h]
  | cons v us ih =>
    obtain ⟨u, rest, hu, rfl, hrest⟩ := exists_wireUnit_of_unstuffAll h
    rw [List.append_assoc, hu.unstuffAll, ih hrest, Option.map_map]
    rfl

/-- A sequence has at most as many values as bytes (R89). -/
theorem unstuffAll_length_le {body vs : List Byte} (h : unstuffAll body = some vs) : vs.length ≤ body.length := by
  induction vs generalizing body with
  | nil => exact Nat.zero_le _
  | cons v vs ih =>
    obtain ⟨u, rest, hu, rfl, hrest⟩ := exists_wireUnit_of_unstuffAll h
    have hpos := hu.length_pos
    have hle := ih hrest
    rw [List.length_cons, List.length_append]
    omega

/-- Stuffed bytes unstuff to themselves (R113). -/
theorem unstuffAll_stuffed (vs : List Byte) : unstuffAll (vs.flatMap stuffBytes) = some vs := by
  induction vs with
  | nil => rfl
  | cons v vs ih => rw [List.flatMap_cons, (wireUnit_stuffBytes v).unstuffAll, ih, Option.map_some]

/-! ## The states of a DECODE run -/

/-- State Info takes the units of `body` when before each of them more than 3 raw bytes remain (R196). -/
def InfoTakes (body rest : List Byte) : Prop :=
  ∀ before left, body = before ++ left → (unstuffAll before).isSome = true → left ≠ [] → 3 < left.length + rest.length

/-- What holds before each unit of a sequence holds before each unit after the first. -/
theorem InfoTakes.tail {u body rest : List Byte} {v : Byte} (h : InfoTakes (u ++ body) rest) (hu : WireUnit u v) :
    InfoTakes body rest := by
  intro before left hsplit hbefore hleft
  refine h (u ++ before) left ?_ ?_ hleft
  · rw [hsplit, List.append_assoc]
  · rwa [hu.unstuffAll, Option.isSome_map]

/-- One pass of Info for each unit it takes (R196, R197). -/
theorem decodeInfo_units {maxInfo passes : Nat} {info vs body rest : List Byte} (htakes : InfoTakes body rest)
    (hvs : unstuffAll body = some vs) (hroom : info.length + vs.length ≤ maxInfo) :
    decodeInfo maxInfo (passes + vs.length) info (body ++ rest) = decodeInfo maxInfo passes (info ++ vs) rest := by
  induction vs generalizing info body with
  | nil => simp [eq_nil_of_unstuffAll hvs]
  | cons v vs ih =>
    obtain ⟨u, left, hu, rfl, hleft⟩ := exists_wireUnit_of_unstuffAll hvs
    have hne : u ++ left ≠ [] := List.append_ne_nil_of_left_ne_nil (List.ne_nil_of_length_pos hu.length_pos) _
    have hmore : 3 < (u ++ left).length + rest.length := htakes [] _ rfl rfl hne
    rw [List.length_cons] at hroom ⊢
    rw [List.append_assoc, ← Nat.add_assoc, decodeInfo_pass (by simpa [Nat.add_assoc] using hmore) (by omega) (hu.decodeByte _),
      ih (htakes.tail hu) hleft (by simp; omega), List.append_assoc, List.singleton_append]

/-- Info takes all the units it can, and as many passes as bytes left remain (R196, R293). -/
theorem exists_decodeInfo_units {maxInfo : Nat} {vs body rest : List Byte} (htakes : InfoTakes body rest)
    (hvs : unstuffAll body = some vs) (hroom : vs.length ≤ maxInfo) :
    ∃ spare, decodeInfo maxInfo (body ++ rest).length [] (body ++ rest)
      = decodeInfo maxInfo (spare + rest.length) vs rest := by
  have hle := unstuffAll_length_le hvs
  have hpasses : (body ++ rest).length = body.length - vs.length + rest.length + vs.length := by
    rw [List.length_append]
    omega
  rw [hpasses]
  exact ⟨_, decodeInfo_units htakes hvs (by simpa using hroom)⟩

/-- What Info has taken when it ends: whole units, whose values it has appended (R196). -/
theorem decodeInfo_ok {maxInfo passes : Nat} {info r info' r' : List Byte}
    (h : decodeInfo maxInfo passes info r = .ok (info', r')) :
    ∃ body vs, r = body ++ r' ∧ unstuffAll body = some vs ∧ info' = info ++ vs := by
  induction passes generalizing info r with
  | zero =>
    cases h
    exact ⟨[], [], rfl, rfl, (List.append_nil _).symm⟩
  | succ passes ih =>
    simp only [decodeInfo] at h
    split at h
    · cases h
      exact ⟨[], [], rfl, rfl, (List.append_nil _).symm⟩
    · split at h
      · cases h
      · split at h
        · cases h
        · rename_i v r₁ hbyte
          obtain ⟨u, hu, rfl⟩ := exists_wireUnit_of_decodeByte hbyte
          obtain ⟨body, vs, rfl, hvs, rfl⟩ := ih h
          refine ⟨u ++ body, v :: vs, (List.append_assoc ..).symm, ?_, by simp⟩
          rw [hu.unstuffAll, hvs, Option.map_some]

/-- The rest of a DECODE run from the FCS low byte on, the content having taken the raw bytes `consumed` (R199 to R202). -/
def decodeFromFcsLow (p : Params) (address control : Byte) (info consumed : List Byte) (hi : Byte) (rest : List Byte) :
    Except Status Frame := do
  let (lo, r) ← decodeByte rest
  if joinBytes hi lo ≠ decodeFcs p.fcsScope address control info consumed then
    .error .checksumMismatch
  else
    decodeStop r
    .ok (Frame.ofInfo address control info p.maxInfo)

/-- The rest of a DECODE run from the FCS state on (R199). -/
def decodeFromFcs (p : Params) (address control : Byte) (info consumed rest : List Byte) : Except Status Frame := do
  let (hi, r) ← decodeByte rest
  decodeFromFcsLow p address control info consumed hi r

/-- The rest of a DECODE run from the Info state on, with `rest` left of the input `r` after the start flag (R196). -/
def decodeFromInfo (p : Params) (address control : Byte) (r : List Byte) (passes : Nat) (info rest : List Byte) :
    Except Status Frame := do
  let (info, r') ← decodeInfo p.maxInfo passes info rest
  decodeFromFcs p address control info (r.take (r.length - r'.length)) r'

theorem decodeFrame_eq (p : Params) (input : List Byte) :
    decodeFrame p input = (do
      let r ← decodeStart input
      let (address, r₁) ← decodeByte r
      let (control, r₂) ← decodeByte r₁
      decodeFromInfo p address control r r₂.length [] r₂) := rfl

/-- A DECODE run up to the Info state (R192, R194, R195). -/
theorem decodeFrame_content {p : Params} {ua uc r rest : List Byte} {address control : Byte} (ha : WireUnit ua address)
    (hc : WireUnit uc control) (hr : r = ua ++ (uc ++ rest)) :
    decodeFrame p (flagByte :: r) = decodeFromInfo p address control r rest.length [] rest := by
  subst hr
  simp only [decodeFrame_eq, decodeStart, if_true, ha.decodeByte, hc.decodeByte, bind, Except.bind]

/-- A sequence with at least two values is the units of the address and the control byte and the units of the info. -/
theorem exists_content_units {body info : List Byte} {address control : Byte}
    (h : unstuffAll body = some (address :: control :: info)) :
    ∃ ua uc infoUnits, WireUnit ua address ∧ WireUnit uc control ∧ unstuffAll infoUnits = some info
      ∧ body = ua ++ (uc ++ infoUnits) := by
  obtain ⟨ua, rest, ha, rfl, hrest⟩ := exists_wireUnit_of_unstuffAll h
  obtain ⟨uc, infoUnits, hc, rfl, hinfo⟩ := exists_wireUnit_of_unstuffAll hrest
  exact ⟨ua, uc, infoUnits, ha, hc, hinfo, rfl⟩

/-- Info takes the units of the info, and then FCS is entered with `rest` left (R196). -/
theorem infoTakes_of_entersFcs {content infoUnits vs info rest : List Byte} (hcontent : unstuffAll content = some vs)
    (hinfo : unstuffAll infoUnits = some info) (h : EntersFcs (content ++ infoUnits) info rest) :
    InfoTakes infoUnits rest := by
  intro before left hsplit hbefore hleft
  have hpos : 0 < left.length := List.length_pos_iff.mpr hleft
  obtain ⟨-, rfl | hthree | ⟨htwo, units, y, hpair, hunits⟩⟩ := h
  · rw [eq_nil_of_unstuffAll hinfo] at hsplit
    exact absurd (List.append_eq_nil_iff.mp hsplit.symm).2 hleft
  · omega
  · have hne : left.length ≠ 1 := by
      intro hone
      obtain ⟨z, rfl⟩ := List.length_eq_one_iff.mp hone
      have hbody : content ++ before ++ [z] = units ++ [escByte] ++ [y] := by
        rw [List.append_assoc, ← hsplit, hpair, List.append_assoc]
        rfl
      obtain ⟨us, hus⟩ := Option.isSome_iff_exists.mp hunits
      have hnone : unstuffAll (content ++ before) = none := by
        rw [(List.append_inj' hbody rfl).1, unstuffAll_append hus]
        rfl
      rw [unstuffAll_append hcontent, Option.map_eq_none_iff] at hnone
      rw [hnone] at hbefore
      cases hbefore
    omega

/-- The raw bytes consumed are those before the bytes left (R200). -/
theorem take_consumed (consumed rest : List Byte) :
    (consumed ++ rest).take ((consumed ++ rest).length - rest.length) = consumed := by
  rw [List.length_append, Nat.add_sub_cancel, List.take_left]

/-- The run goes on in FCS with what Info has taken and left (R196). -/
theorem decodeFromInfo_of_ok {p : Params} {passes : Nat} {info info' r₂ rest : List Byte}
    (h : decodeInfo p.maxInfo passes info r₂ = .ok (info', rest)) (address control : Byte) (consumed : List Byte) :
    decodeFromInfo p address control (consumed ++ rest) passes info r₂
      = decodeFromFcs p address control info' consumed rest := by
  rw [decodeFromInfo, h]
  exact congrArg (decodeFromFcs p address control info' · rest) (take_consumed ..)

section frame
variable {p : Params} {body info rest : List Byte} {address control : Byte}
  (hbody : unstuffAll body = some (address :: control :: info))
include hbody

/-- A DECODE run up to the FCS state, which is entered with `rest` left (R192 to R196). -/
theorem decodeFrame_entersFcs (hroom : info.length ≤ p.maxInfo) (henters : EntersFcs body info rest) :
    decodeFrame p (flagByte :: (body ++ rest)) = decodeFromFcs p address control info body rest := by
  obtain ⟨ua, uc, infoUnits, ha, hc, hinfo, rfl⟩ := exists_content_units hbody
  have hcontent : unstuffAll (ua ++ uc) = some [address, control] := by
    rw [ha.unstuffAll, ← List.append_nil uc, hc.unstuffAll]
    rfl
  have htakes : InfoTakes infoUnits rest :=
    infoTakes_of_entersFcs hcontent hinfo (by rwa [List.append_assoc])
  obtain ⟨hrest, -⟩ := henters
  obtain ⟨spare, hloop⟩ := exists_decodeInfo_units htakes hinfo hroom
  rw [decodeInfo_stop hrest] at hloop
  rw [decodeFrame_content ha hc (rest := infoUnits ++ rest) (by simp), decodeFromInfo_of_ok hloop]

/-- A DECODE run that would append one info byte more than MAX_INFO (R197). -/
theorem decodeFrame_overflow (hfull : info.length = p.maxInfo) (hmore : 3 < rest.length) :
    decodeFrame p (flagByte :: (body ++ rest)) = .error .malformedStream := by
  obtain ⟨ua, uc, infoUnits, ha, hc, hinfo, rfl⟩ := exists_content_units hbody
  have htakes : InfoTakes infoUnits rest := fun _ _ _ _ _ => Nat.lt_add_left _ hmore
  obtain ⟨spare, hloop⟩ := exists_decodeInfo_units htakes hinfo (Nat.le_of_eq hfull)
  have hpass : spare + rest.length = spare + (rest.length - 1) + 1 := by omega
  rw [hpass, decodeInfo_overflow hmore hfull] at hloop
  rw [decodeFrame_content ha hc (rest := infoUnits ++ rest) (by simp), decodeFromInfo, hloop]
  rfl

end frame

/-! ## The errors of each state -/

/-- Of two units read one after another from the input, one fails. -/
def UnitPairFails (r : List Byte) (e : Status) : Prop :=
  decodeByte r = .error e ∨ ∃ v r', decodeByte r = .ok (v, r') ∧ decodeByte r' = .error e

/-- With no unit left, or with only one, two cannot be read (R191). -/
theorem unitPairFails_exhausted {r : List Byte} (h : r = [] ∨ ∃ v, unstuff r = .ok (v, r.length)) :
    UnitPairFails r .incompleteFrame := by
  obtain rfl | ⟨v, hv⟩ := h
  · exact .inl decodeByte_nil
  · exact .inr ⟨v, [], (wireUnit_of_unstuff hv).decodeByte_self, decodeByte_nil⟩

/-- An escape as the last byte, where one of two units is read (R112). -/
theorem unitPairFails_dangling {unit : List Byte} (h : unit = [] ∨ ∃ v, unstuff unit = .ok (v, unit.length)) :
    UnitPairFails (unit ++ [escByte]) .malformedStream := by
  obtain rfl | ⟨v, hv⟩ := h
  · exact .inl decodeByte_dangling
  · exact .inr ⟨v, _, (wireUnit_of_unstuff hv).decodeByte _, decodeByte_dangling⟩

section fails
variable {r : List Byte} {e : Status} (h : UnitPairFails r e) (p : Params)
include h

/-- The two units of the Address and the Control state (R194, R195). -/
theorem decodeFrame_of_unitPairFails : decodeFrame p (flagByte :: r) = .error e := by
  simp only [decodeFrame_eq, decodeStart, if_true, bind, Except.bind]
  obtain h | ⟨v, r', hv, h⟩ := h
  · simp only [h]
  · simp only [hv, h]

/-- The two units of the FCS state (R199). -/
theorem decodeFromFcs_of_unitPairFails (address control : Byte) (info consumed : List Byte) :
    decodeFromFcs p address control info consumed r = .error e := by
  simp only [decodeFromFcs, decodeFromFcsLow, bind, Except.bind]
  obtain h | ⟨v, r', hv, h⟩ := h
  · simp only [h]
  · simp only [hv, h]

end fails

/-- The FCS state with a unit for each FCS byte: the checksum is compared, and then the stop flag is looked at (R200, R201). -/
theorem decodeFromFcs_units {uhi ulo : List Byte} {hi lo : Byte} (hhi : WireUnit uhi hi) (hlo : WireUnit ulo lo) (p : Params)
    (address control : Byte) (info consumed tail : List Byte) :
    decodeFromFcs p address control info consumed (uhi ++ (ulo ++ tail)) =
      if joinBytes hi lo ≠ decodeFcs p.fcsScope address control info consumed then .error .checksumMismatch
      else (decodeStop tail).map fun _ => Frame.ofInfo address control info p.maxInfo := by
  simp only [decodeFromFcs, decodeFromFcsLow, bind, Except.bind, hhi.decodeByte, hlo.decodeByte]
  split
  · rfl
  · cases decodeStop tail <;> rfl

section exec
variable {s : State} {n : Half} (hn : n.toNat ≤ s.params.bufSize) {input : List Byte}
  (hinput : s.buf.readList 0 n.toNat = input)
include hn hinput

/-- DECODE whose run fails answers the error (R203). -/
theorem exec_decode_error {e : Status} (h : decodeFrame s.params input = .error e) :
    ∃ t, exec (.decode n) s = .next t ∧ t.response = some { status := e, value := 0 } :=
  ⟨_, execDecode_of_error hn (hinput ▸ h), rfl⟩

/-- DECODE whose run succeeds holds the frame (R202). -/
theorem exec_decode_ok {f : Frame} (h : decodeFrame s.params input = .ok f) : exec (.decode n) s = .next (s.decodeOk f) :=
  execDecode_of_ok hn (hinput ▸ h)

end exec

/-- Settles O31: with no input AwaitStartFlag is exhausted, and it looks at BUF[0] alone. -/
theorem decodeChecksTheStartFlag : Obligations.DecodeChecksTheStartFlag := by
  refine fun s n => ⟨fun hzero => ?_, fun hpos hn hfirst => ?_⟩
  · subst hzero
    exact exec_decode_error (Nat.zero_le _) rfl rfl
  · refine exec_decode_error hn rfl ?_
    obtain ⟨k, hk⟩ := Nat.exists_eq_add_one.mpr hpos
    have hstart : decodeStart (s.buf.readList 0 n.toNat) = .error .malformedStream := by
      rw [hk, Memory.readList]
      exact if_neg hfirst
    simp only [decodeFrame_eq, hstart, bind, Except.bind]

/-- Settles O32, by the two units of the Address and the Control state. -/
theorem decodeAddressAndControlErrors : Obligations.DecodeAddressAndControlErrors :=
  fun s _ _ hn hunit =>
    ⟨fun hinput => exec_decode_error hn hinput (decodeFrame_of_unitPairFails (unitPairFails_exhausted hunit) s.params),
      fun hinput => exec_decode_error hn hinput (decodeFrame_of_unitPairFails (unitPairFails_dangling hunit) s.params)⟩

/-- Settles O33, by the two units of the FCS state. -/
theorem decodeFcsUnitErrors : Obligations.DecodeFcsUnitErrors := by
  intro s n body rest info address control hn hinput hbody hroom henters
  have hrun := decodeFrame_entersFcs (p := s.params) hbody hroom henters
  refine ⟨fun hexhausted => ?_, ?_⟩
  · have hfails := decodeFromFcs_of_unitPairFails (unitPairFails_exhausted hexhausted) s.params address control info body
    exact exec_decode_error hn hinput (hrun.trans hfails)
  · rintro ⟨unit, rfl, hunit⟩
    have hfails := decodeFromFcs_of_unitPairFails (unitPairFails_dangling hunit) s.params address control info body
    exact exec_decode_error hn hinput (hrun.trans hfails)

/-- Settles O34, by the Info loop, which overflows once it has taken the units of `body`. -/
theorem decodeInfoOverflowIsMalformed : Obligations.DecodeInfoOverflowIsMalformed :=
  fun _ _ _ _ _ _ _ hn hinput hbody hfull hmore => exec_decode_error hn hinput (decodeFrame_overflow hbody hfull hmore)

/-- Settles O35: the FCS state has a unit for each FCS byte, and compares the checksum before it looks at `tail`. -/
theorem decodeChecksTheSumBeforeTheStopFlag : Obligations.DecodeChecksTheSumBeforeTheStopFlag := by
  intro s n body info hiUnit loUnit tail address control hi lo hn hinput hbody hroom henters hhi hlo
  have hrun := decodeFrame_entersFcs (p := s.params) hbody hroom henters
  rw [decodeFromFcs_units (wireUnit_of_unstuff hhi) (wireUnit_of_unstuff hlo)] at hrun
  refine ⟨fun hsum => ?_, fun hsum => ?_⟩
  · exact exec_decode_error hn hinput (hrun.trans (if_pos hsum.symm))
  · rw [if_neg (not_not_intro hsum.symm)] at hrun
    refine ⟨?_, ?_⟩
    · rintro rfl
      exact exec_decode_error hn hinput hrun
    · rintro last rfl hlast
      have hstop : decodeStop [last] = .error .malformedStream := if_neg hlast
      exact exec_decode_error hn hinput (hrun.trans (by rw [hstop]; rfl))

/-- Settles O30: the run has failed, and FR takes the draws before the working state does. -/
theorem decodeFailureDrawsTheFrame : Obligations.DecodeFailureDrawsTheFrame := by
  intro s n t h hn hstatus
  rcases hrun : decodeFrame s.params (s.buf.readList 0 n.toNat) with e | f
  · cases (execDecode_of_error hn hrun).symm.trans h
    refine ⟨e, s.draws, _, _, _, ?_, Nat.le_refl _, Nat.le_add_right _ 7, rfl, s.drawFrame_infoLen_le⟩
    obtain rfl | rfl | rfl := decodeFrame_error hrun <;> simp
  · cases (execDecode_of_ok hn hrun).symm.trans h
    exact absurd rfl hstatus

/-! ## The frames DECODE accepts -/

section ofInfo
variable {info : List Byte} (h : info.length ≤ 255) (address control : Byte) (maxInfo : Nat)
include h

/-- Up to 255 info bytes, FR.info_len counts them all (R6). -/
theorem Frame.ofInfo_infoLen_toNat : (Frame.ofInfo address control info maxInfo).infoLen.toNat = info.length := by
  simp only [Frame.ofInfo, BitVec.toNat_ofNat]
  omega

theorem zext32_ofInfo_infoLen :
    zext32 (Frame.ofInfo address control info maxInfo).infoLen = BitVec.ofNat 32 info.length := by
  apply BitVec.eq_of_toNat_eq
  rw [zext32, BitVec.toNat_setWidth, Frame.ofInfo_infoLen_toNat h, BitVec.toNat_ofNat]

end ofInfo

/-- A unit of one byte is that byte, and no escape (R89). -/
theorem WireUnit.of_length_le_one {u : List Byte} {v : Byte} (h : WireUnit u v) (hlength : u.length ≤ 1) :
    v ≠ escByte ∧ u = [v] := by
  cases h with
  | plain h => exact ⟨h, rfl⟩
  | pair y => exact absurd hlength (Nat.not_succ_le_self 1)

/-- What passes AwaitStartFlag starts with the flag (R192). -/
theorem decodeStart_ok {input r : List Byte} (h : decodeStart input = .ok r) : input = flagByte :: r := by
  cases input with
  | nil => cases h
  | cons v r' =>
    by_cases hv : v = flagByte
    · cases (if_pos hv).symm.trans h
      rw [hv]
    · cases (if_neg hv).symm.trans h

/-- The stop flag is tested as the start flag is (R192, R201). -/
theorem decodeStop_eq (r : List Byte) : decodeStop r = (decodeStart r).map fun _ => () := by
  cases r with
  | nil => rfl
  | cons v r =>
    rw [decodeStop, decodeStart]
    split <;> rfl

/-- What passes AwaitStopFlag starts with the flag (R201). -/
theorem decodeStop_ok {r : List Byte} (h : decodeStop r = .ok ()) : ∃ r', r = flagByte :: r' := by
  rw [decodeStop_eq] at h
  rcases hstart : decodeStart r with e | r'
  · rw [hstart] at h
    cases h
  · exact ⟨r', decodeStart_ok hstart⟩

/-- Two units and the stop flag in at most 3 bytes are a byte each, and nothing follows them (R196, R202). -/
theorem fcs_and_flag_of_length_le_three {rest r r' : List Byte} {hi lo : Byte} (hlength : rest.length ≤ 3)
    (hhi : decodeByte rest = .ok (hi, r)) (hlo : decodeByte r = .ok (lo, r')) (hstop : decodeStop r' = .ok ()) :
    rest = [hi, lo, flagByte] ∧ hi ≠ escByte ∧ lo ≠ escByte := by
  obtain ⟨uhi, huhi, rfl⟩ := exists_wireUnit_of_decodeByte hhi
  obtain ⟨ulo, hulo, rfl⟩ := exists_wireUnit_of_decodeByte hlo
  obtain ⟨after, rfl⟩ := decodeStop_ok hstop
  have hhipos := huhi.length_pos
  have hlopos := hulo.length_pos
  simp only [List.length_append, List.length_cons] at hlength
  obtain ⟨hhiesc, rfl⟩ := huhi.of_length_le_one (by omega)
  obtain ⟨hloesc, rfl⟩ := hulo.of_length_le_one (by omega)
  obtain rfl : after = [] := List.eq_nil_of_length_eq_zero (by omega)
  exact ⟨rfl, hhiesc, hloesc⟩

section run
variable {p : Params} {body info : List Byte} {address control hi lo : Byte}

/-- A DECODE run over a frame with an unescaped FCS that matches (R202). -/
theorem decodeFrame_of_frame (hbody : unstuffAll body = some (address :: control :: info))
    (hroom : info.length ≤ p.maxInfo) (hhi : hi ≠ escByte) (hlo : lo ≠ escByte)
    (hsum : decodeFcs p.fcsScope address control info body = joinBytes hi lo) :
    decodeFrame p (flagByte :: (body ++ [hi, lo, flagByte])) = .ok (Frame.ofInfo address control info p.maxInfo) := by
  have htail := decodeFromFcs_units (.plain hhi) (.plain hlo) p address control info body [flagByte]
  rw [if_neg (not_not_intro hsum.symm)] at htail
  exact (decodeFrame_entersFcs hbody hroom ⟨Nat.le_of_eq rfl, .inr (.inl rfl)⟩).trans htail

/-- Only such a run succeeds: at most 3 bytes are left when FCS is entered (R196, R202). -/
theorem frame_of_decodeFrame {input : List Byte} {f : Frame} (h : decodeFrame p input = .ok f) :
    ∃ address control body info hi lo, input = flagByte :: (body ++ [hi, lo, flagByte]) ∧ hi ≠ escByte ∧ lo ≠ escByte
      ∧ unstuffAll body = some (address :: control :: info) ∧ info.length ≤ p.maxInfo
      ∧ decodeFcs p.fcsScope address control info body = joinBytes hi lo
      ∧ f = Frame.ofInfo address control info p.maxInfo := by
  obtain ⟨r, address, r₁, control, r₂, info, r₃, hi, r₄, lo, r₅, hstart, ha, hc, hinfo, hhi, hlo, hsum, hstop, hf⟩ :=
    decodeFrame_ok h
  have hroom := decodeInfo_length_le (Nat.zero_le _) hinfo
  obtain ⟨rfl, hhi, hlo⟩ := fcs_and_flag_of_length_le_three (decodeInfo_rest_le (Nat.le_refl _) hinfo) hhi hlo hstop
  obtain ⟨ua, hua, rfl⟩ := exists_wireUnit_of_decodeByte ha
  obtain ⟨uc, huc, rfl⟩ := exists_wireUnit_of_decodeByte hc
  obtain ⟨infoUnits, _, rfl, hvs, rfl⟩ := decodeInfo_ok hinfo
  rw [← List.append_assoc uc, ← List.append_assoc ua] at hsum hstart
  rw [take_consumed] at hsum
  have hbody : unstuffAll (ua ++ (uc ++ infoUnits)) = some (address :: control :: info) := by
    rw [hua.unstuffAll, huc.unstuffAll, hvs]
    rfl
  exact ⟨address, control, _, _, hi, lo, decodeStart_ok hstart, hhi, hlo, hbody, hroom, hsum.symm, hf⟩

end run

/-- Settles O28, by the run over such a frame. -/
theorem decodeCompletesOnFrames : Obligations.DecodeCompletesOnFrames := by
  intro s n body info address control hi lo hinv hn hinput hhi hlo hbody hroom hsum
  obtain ⟨⟨hmax, -, -⟩, -⟩ := hinv
  have hlength : info.length ≤ 255 := Nat.le_trans hroom hmax
  have hexec := exec_decode_ok hn hinput (decodeFrame_of_frame hbody hroom hhi hlo hsum)
  rw [State.decodeOk, zext32_ofInfo_infoLen hlength] at hexec
  exact ⟨_, _, _, _, hexec, rfl, rfl, Frame.ofInfo_infoLen_toNat hlength .., rfl⟩

/-- Settles O29: the run that succeeds is one over such a frame, which has at least two content bytes. -/
theorem decodeAcceptsOnlyFrames : Obligations.DecodeAcceptsOnlyFrames := by
  intro s t n hinv h hstatus
  obtain ⟨⟨hmax, -, -⟩, -⟩ := hinv
  rcases Nat.lt_or_ge s.params.bufSize n.toNat with hn | hn
  · cases (execDecode_refused hn).symm.trans h
    cases hstatus
  rcases hrun : decodeFrame s.params (s.buf.readList 0 n.toNat) with e | f
  · cases (execDecode_of_error hn hrun).symm.trans h
    exact absurd (Option.some.inj hstatus) (decodeFrame_error_ne_ok hrun)
  · cases (execDecode_of_ok hn hrun).symm.trans h
    obtain ⟨address, control, body, info, hi, lo, hinput, hhi, hlo, hbody, hroom, hsum, rfl⟩ := frame_of_decodeFrame hrun
    have hn' := congrArg List.length hinput
    have hcontent := unstuffAll_length_le hbody
    simp only [Memory.readList_length, List.length_cons, List.length_append, List.length_nil] at hn' hcontent
    exact ⟨by omega, hn, rfl, rfl, body, info, hi, lo, hinput, hhi, hlo, hbody,
      (Frame.ofInfo_infoLen_toNat (Nat.le_trans hroom hmax) ..).symm, hroom, rfl, hsum⟩

/-! ## DECODE of what ENCODE wrote -/

/-- The encoded frame, with the bytes of the FCS apart from those of the content (R87, R174). -/
theorem wireFrame_eq (scope : FcsScope) (f : Frame) :
    wireFrame scope f = flagByte :: ((f.address :: f.control :: f.infoPrefix).flatMap stuffBytes
      ++ (stuffBytes (fcsHigh (fcsOf scope f)) ++ (stuffBytes (fcsLow (fcsOf scope f)) ++ [flagByte]))) := by
  simp [wireFrame, stuffedContent]

/-- The decoder's FCS over stuffed content is that of R155. -/
theorem decodeFcs_stuffed (scope : FcsScope) (address control : Byte) (info : List Byte) :
    decodeFcs scope address control info ((address :: control :: info).flatMap stuffBytes)
      = crc16 ((address :: control :: info).flatMap (fcsUnit scope)) := by
  cases scope with
  | logical => exact congrArg crc16 (List.flatMap_singleton' _).symm
  | written => rfl

theorem State.Inv.infoPrefix_length {s : State} (h : s.Inv) : s.fr.infoPrefix.length = s.fr.infoLen.toNat := by
  obtain ⟨-, hlength, hle, -, -⟩ := h
  rw [Frame.infoPrefix, List.length_take, hlength, Nat.min_eq_left hle]

theorem State.Inv.infoPrefix_length_le {s : State} (h : s.Inv) : s.fr.infoPrefix.length ≤ s.params.maxInfo := by
  rw [h.infoPrefix_length]
  obtain ⟨-, -, hle, -, -⟩ := h
  exact hle

/-- A read of K bytes after a successful ENCODE gives the encoded frame (R178). -/
theorem State.Inv.readList_encoded {s : State} (h : s.Inv) {len : Half} (hlen : len.toNat = s.encodedLength) :
    (s.buf.writeList 0 (wireFrame s.params.fcsScope s.fr)).readList 0 len.toNat = wireFrame s.params.fcsScope s.fr := by
  rw [hlen, ← h.wireFrame_length]
  exact Memory.readList_writeList ..

/-- DECODE of what ENCODE wrote, when its run fails (R203). -/
theorem exec_encode_decode_error {s : State} (hinv : s.Inv) {cap len : Half} (hcap : cap.toNat ≤ s.params.bufSize)
    (hfit : s.encodedLength ≤ cap.toNat) (hlen : len.toNat = s.encodedLength) {e : Status}
    (h : decodeFrame s.params (wireFrame s.params.fcsScope s.fr) = .error e) :
    ∃ t u, exec (.encode cap) s = .next t ∧ exec (.decode len) t = .next u
      ∧ u.response = some { status := e, value := 0 } := by
  have hencode := exec_encode_fits hinv hcap hfit
  refine ⟨_, _, hencode, execDecode_of_error ?_ (e := e) ?_, rfl⟩
  · exact Nat.le_trans (Nat.le_of_eq hlen) (Nat.le_trans hfit hcap)
  · exact (congrArg (decodeFrame s.params) (hinv.readList_encoded hlen)).trans h

/-- Settles O38: the encoded frame is a frame that DECODE completes on, its FCS bytes being written as themselves. -/
theorem decodeGivesBackTheEncodedFrame : Obligations.DecodeGivesBackTheEncodedFrame := by
  intro s cap len hinv hcap hfit hlen hhi hlo
  have hencode := exec_encode_fits hinv hcap hfit
  have hinv' := (update_of_exec hencode).inv hinv
  have hinput : (s.buf.writeList 0 (wireFrame s.params.fcsScope s.fr)).readList 0 len.toNat = _ :=
    (hinv.readList_encoded hlen).trans (wireFrame_eq ..)
  rw [stuffBytes_unescaped hhi, stuffBytes_unescaped hlo] at hinput
  have hsum : decodeFcs s.params.fcsScope s.fr.address s.fr.control s.fr.infoPrefix
      ((s.fr.address :: s.fr.control :: s.fr.infoPrefix).flatMap stuffBytes) = joinBytes s.fcsBytes.1 s.fcsBytes.2 :=
    (decodeFcs_stuffed ..).trans (joinBytes_fcs _).symm
  obtain ⟨crc, dec, draws, f, hdecode, haddress, hcontrol, hinfoLen, hinfo⟩ :=
    decodeCompletesOnFrames _ len _ _ _ _ _ _ hinv' (by rw [hlen]; exact Nat.le_trans hfit hcap) hinput hhi.2 hlo.2
      (unstuffAll_stuffed _) hinv.infoPrefix_length_le hsum
  rw [hinv.infoPrefix_length] at hinfoLen
  refine ⟨_, _, hencode, hdecode, ?_, haddress, hcontrol, BitVec.eq_of_toNat_eq hinfoLen, ?_⟩
  · rw [hinv.infoPrefix_length, BitVec.ofNat_toNat]
    rfl
  · rw [Frame.infoPrefix, hinfoLen, hinfo, ← hinv.infoPrefix_length]
    exact List.take_left

/-- The last byte of a read stands at its last index. -/
theorem Memory.read_last {m : Memory} {n : Nat} {xs : List Byte} {v : Byte} (h : m.readList 0 n = xs ++ [v]) :
    m.read (n - 1) = v := by
  have hlength : n = xs.length + 1 := by simpa using congrArg List.length h
  have hget := m.readList_getElem? 0 n xs.length
  rw [h] at hget
  simpa [hlength, eq_comm] using hget

/-- Settles O40: a frame DECODE accepts ends in a raw flag, and the encoded frame has none between its first and last byte. -/
theorem decodeRejectsEveryStrictPrefix : Obligations.DecodeRejectsEveryStrictPrefix := by
  intro s cap len hinv hcap hfit hlen
  obtain ⟨t, hencode, -, -, hinner⟩ := encodedFrameHasNoInnerFlag s cap hinv hcap hfit
  have hu := update_of_exec hencode
  have hn : len.toNat ≤ t.params.bufSize := by
    rw [hu.params_eq]
    omega
  rcases hrun : decodeFrame t.params (t.buf.readList 0 len.toNat) with e | f
  · refine ⟨t, _, e, hencode, execDecode_of_error hn hrun, rfl, ?_⟩
    obtain rfl | rfl | rfl := decodeFrame_error hrun <;> simp
  · obtain ⟨hsix, -, -, -, body, -, hi, lo, hinput, -⟩ :=
      decodeAcceptsOnlyFrames t _ len (hu.inv hinv) (execDecode_of_ok hn hrun) rfl
    have hlast : t.buf.read (len.toNat - 1) = 0x7E :=
      Memory.read_last (xs := 0x7E :: (body ++ [hi, lo])) (by simpa using hinput)
    exact absurd hlast (hinner _ (by omega) (by omega))

theorem stuffBytes_length_le_two (v : Byte) : (stuffBytes v).length ≤ 2 := by
  rw [stuffBytes_length]
  split <;> decide

theorem stuffBytes_escaped_length {v : Byte} (h : ¬ Unescaped v) : (stuffBytes v).length = 2 := by
  rw [stuffBytes_escaped (escaped_of_not_unescaped h)]
  rfl

section escaped
variable {hi lo : Byte} (hescaped : ¬ Unescaped hi ∨ ¬ Unescaped lo)
include hescaped

/-- An escaped FCS and the closing flag are more than the 3 bytes Info leaves (R206). -/
theorem escapedFcs_length : 3 < (stuffBytes hi ++ (stuffBytes lo ++ [flagByte])).length := by
  have hhi := (wireUnit_stuffBytes hi).length_pos
  have hlo := (wireUnit_stuffBytes lo).length_pos
  rw [List.length_append, List.length_append, List.length_singleton]
  obtain h | h := hescaped
  · have htwo := stuffBytes_escaped_length h
    omega
  · have htwo := stuffBytes_escaped_length h
    omega

/-- Once Info has taken the FCS high byte, FCS is entered with the unit of the low byte and the closing flag left (R206). -/
theorem entersFcs_escapedFcs (content info : List Byte) :
    EntersFcs ((content ++ [hi]).flatMap stuffBytes) info (stuffBytes lo ++ [flagByte]) := by
  have hlo := stuffBytes_length_le_two lo
  rw [EntersFcs, List.length_append, List.length_singleton, List.flatMap_append, List.flatMap_singleton]
  refine ⟨Nat.succ_le_succ hlo, .inr ?_⟩
  by_cases h : Unescaped lo
  · have hhi := escaped_of_not_unescaped (hescaped.resolve_right (not_not_intro h))
    have hunits := unstuffAll_stuffed content
    rw [stuffBytes_unescaped h, stuffBytes_escaped hhi]
    exact .inr ⟨rfl, _, _, rfl, Option.isSome_of_eq_some hunits⟩
  · exact .inl (congrArg Nat.succ (stuffBytes_escaped_length h))

end escaped

section run
variable {s : State} (hinv : s.Inv) (hescaped : ¬ Unescaped s.fcsBytes.1 ∨ ¬ Unescaped s.fcsBytes.2)
include hinv hescaped

/-- With MAX_INFO info bytes before it, an escaped FCS overflows Info (R206). -/
theorem decodeFrame_escapedFcs_full (hfull : s.fr.infoLen.toNat = s.params.maxInfo) :
    decodeFrame s.params (wireFrame s.params.fcsScope s.fr) = .error .malformedStream := by
  rw [wireFrame_eq]
  exact decodeFrame_overflow (unstuffAll_stuffed _) (hinv.infoPrefix_length.trans hfull) (escapedFcs_length hescaped)

/-- Otherwise the FCS state reads the low byte and the closing flag as the FCS, and nothing is left (R206). -/
theorem decodeFrame_escapedFcs_room (hroom : s.fr.infoLen.toNat ≠ s.params.maxInfo) :
    decodeFrame s.params (wireFrame s.params.fcsScope s.fr) = .error
      (if joinBytes s.fcsBytes.2 flagByte
          = crc16 ((s.fr.address :: s.fr.control :: (s.fr.infoPrefix ++ [s.fcsBytes.1])).flatMap
              (fcsUnit s.params.fcsScope))
        then .incompleteFrame else .checksumMismatch) := by
  have hlength : (s.fr.infoPrefix ++ [s.fcsBytes.1]).length ≤ s.params.maxInfo := by
    have hle := hinv.infoPrefix_length_le
    have heq := hinv.infoPrefix_length
    rw [List.length_append, List.length_singleton]
    omega
  have henters := entersFcs_escapedFcs hescaped (s.fr.address :: s.fr.control :: s.fr.infoPrefix)
    (s.fr.infoPrefix ++ [s.fcsBytes.1])
  have htail := decodeFromFcs_units (wireUnit_stuffBytes s.fcsBytes.2) (.plain (v := flagByte) (by decide)) s.params
    s.fr.address s.fr.control (s.fr.infoPrefix ++ [s.fcsBytes.1])
    ((s.fr.address :: s.fr.control :: (s.fr.infoPrefix ++ [s.fcsBytes.1])).flatMap stuffBytes) []
  have hrun := (decodeFrame_entersFcs (unstuffAll_stuffed _) hlength henters).trans htail
  rw [decodeFcs_stuffed, ite_not] at hrun
  have hwire : wireFrame s.params.fcsScope s.fr
      = flagByte :: ((s.fr.address :: s.fr.control :: (s.fr.infoPrefix ++ [s.fcsBytes.1])).flatMap stuffBytes
        ++ (stuffBytes s.fcsBytes.2 ++ [flagByte])) := by
    simp [wireFrame_eq]
  rw [hwire]
  refine hrun.trans ?_
  split <;> rfl

end run

/-- Settles O39: the FCS high byte is one info byte too many, or Info takes it and FCS is entered one unit late. -/
theorem decodeRejectsAnEscapedFcs : Obligations.DecodeRejectsAnEscapedFcs := by
  intro s cap len hinv hcap hfit hlen hescaped
  by_cases hfull : s.fr.infoLen.toNat = s.params.maxInfo
  · rw [if_pos hfull]
    exact exec_encode_decode_error hinv hcap hfit hlen (decodeFrame_escapedFcs_full hinv hescaped hfull)
  · rw [if_neg hfull]
    exact exec_encode_decode_error hinv hcap hfit hlen (decodeFrame_escapedFcs_room hinv hescaped hfull)

/-! ## The per-byte decoder -/

/-- The state DECODE ends in, given what its run comes to (R202, R203). -/
def State.decodeEnd (s : State) : Except Status Frame → State
  | .error e => s.decodeFailed e
  | .ok f => s.decodeOk f

theorem execDecode_eq_decodeEnd {s : State} {n : Half} (hn : n.toNat ≤ s.params.bufSize) :
    execDecode n s = .next (s.decodeEnd (decodeFrame s.params (s.buf.readList 0 n.toNat))) := by
  rcases hrun : decodeFrame s.params (s.buf.readList 0 n.toNat) with e | f
  · exact execDecode_of_error hn hrun
  · exact execDecode_of_ok hn hrun

/-- The bytes the FCS is computed over: those decoded or those consumed (R155, R200). -/
def fcsContent (scope : FcsScope) (decoded consumed : List Byte) : List Byte :=
  match scope with
  | .logical => decoded
  | .written => consumed

theorem fcsContent_append (scope : FcsScope) (decoded consumed raw : List Byte) (v : Byte) :
    fcsContent scope (decoded ++ [v]) (consumed ++ raw)
      = fcsContent scope decoded consumed ++ decodeFcsUnit scope v raw := by
  cases scope <;> rfl

theorem decodeFcs_eq (scope : FcsScope) (address control : Byte) (info consumed : List Byte) :
    decodeFcs scope address control info consumed = crc16 (fcsContent scope (address :: control :: info) consumed) := by
  cases scope <;> rfl

/-- The per-byte run that DECODE begins in `s₀` has come to `s`: FR holds `f`, the values `decoded` have been taken from the raw
bytes `consumed` into the CRC register, and the input `rest` is left. Nothing but FR, the CRC register and the decoder's working
state has changed (R210). -/
structure DecodingAt (s₀ s : State) (f : Frame) (decoded consumed rest : List Byte) : Prop where
  outside : { s with fr := s₀.fr, crc := s₀.crc, dec := s₀.dec } = s₀
  fr_eq : s.fr = f
  crc_eq : s.crc = (fcsContent s₀.params.fcsScope decoded consumed).foldl crcUpdate crcInit
  rest_eq : s.decodeRest = rest

/-- At its start the per-byte run has all of BUF[0..n) before it (R193). -/
theorem decodingAt_decodeBegin (s : State) (n : Nat) :
    DecodingAt s (s.decodeBegin n) (Frame.zero s.params.maxInfo) [] [] (s.buf.readList 0 n) := by
  refine ⟨rfl, rfl, ?_, rfl⟩
  cases s.params.fcsScope <;> rfl

theorem Memory.readList_drop (m : Memory) (i count k : Nat) :
    (m.readList i count).drop k = m.readList (i + k) (count - k) := by
  apply List.ext_getElem?
  intro j
  simp only [List.getElem?_drop, Memory.readList_getElem?, Nat.add_assoc, Nat.lt_sub_iff_add_lt']

section DecodingAt
variable {s₀ s : State} {f : Frame} {decoded consumed rest : List Byte}

section
variable (h : DecodingAt s₀ s f decoded consumed rest)
include h

theorem DecodingAt.params_eq : s.params = s₀.params := (congrArg State.params h.outside :)

/-- A run that fails ends as DECODE in its first state does: the end draws FR and the working state (R203). -/
theorem DecodingAt.decodeFailed_eq (e : Status) : s.decodeFailed e = s₀.decodeFailed e :=
  (congrArg (State.decodeFailed · e) h.outside :)

theorem DecodingAt.decodeOk_eq (f' : Frame) : s.decodeOk f' = s₀.decodeOk f' :=
  (congrArg (State.decodeOk · f') h.outside :)

theorem DecodingAt.remaining : s.dec.n - s.dec.c = rest.length := by
  rw [← h.rest_eq, State.decodeRest, Memory.readList_length]

end

/-- Moving the cursor on by `raw`, whatever else the decoder's working state takes on (R111). -/
theorem DecodingAt.advance {raw : List Byte} (h : DecodingAt s₀ s f decoded consumed (raw ++ rest)) {dec : Decoder}
    (hn : dec.n = s.dec.n) (hc : dec.c = s.dec.c + raw.length) :
    DecodingAt s₀ { s with dec := dec } f decoded consumed rest := by
  refine ⟨h.outside, h.fr_eq, h.crc_eq, ?_⟩
  have hdrop := congrArg (List.drop raw.length) h.rest_eq
  rw [List.drop_left, State.decodeRest, Memory.readList_drop] at hdrop
  rw [← hdrop, State.decodeRest, hn, hc, Nat.sub_sub]

/-- A unit of the content: FR takes its value, the CRC register its bytes, and the cursor advances (R210). -/
theorem DecodingAt.content {raw : List Byte} (h : DecodingAt s₀ s f decoded consumed (raw ++ rest)) (v : Byte) (f' : Frame) :
    DecodingAt s₀
      { s with
        fr := f'
        crc := (decodeFcsUnit s.params.fcsScope v raw).foldl crcUpdate s.crc
        dec := { s.dec with c := s.dec.c + raw.length } }
      f' (decoded ++ [v]) (consumed ++ raw) rest := by
  have hrest := (h.advance (dec := { s.dec with c := s.dec.c + raw.length }) rfl rfl).rest_eq
  refine ⟨h.outside, rfl, ?_, hrest⟩
  rw [fcsContent_append, List.foldl_append, ← h.crc_eq, ← h.params_eq]

end DecodingAt

/-- What a per-byte step leads to in `fuel` more steps. -/
def Progress.run (f : State → Progress) (fuel : Nat) : Progress → Option State
  | .ended t => some t
  | .running t => runSteps f fuel t

theorem runSteps_of_pos (f : State → Progress) {fuel : Nat} (h : 0 < fuel) (s : State) :
    runSteps f fuel s = (f s).run f (fuel - 1) := by
  obtain ⟨k, rfl⟩ := Nat.exists_eq_add_one.mpr h
  rw [runSteps, Nat.add_sub_cancel]
  cases f s <;> rfl

section run
variable {s₀ s : State} {f : Frame} {decoded consumed rest : List Byte} {fuel : Nat}
  (h : DecodingAt s₀ s f decoded consumed rest) (hfuel : rest.length < fuel)
include h hfuel

/-- A step that reads a unit: an error ends the run, and a value goes on (R112). -/
theorem run_decodeUnit {goOn : Byte → Nat → Progress} (hstep : decodeStep s = s.decodeUnit goOn)
    {next : Byte × List Byte → Except Status Frame}
    (hnext : ∀ v raw r, rest = raw ++ r → 0 < raw.length → r.length < fuel - 1 →
      (goOn v raw.length).run decodeStep (fuel - 1) = some (s₀.decodeEnd (next (v, r)))) :
    runSteps decodeStep fuel s = some (s₀.decodeEnd (decodeByte rest >>= next)) := by
  rw [runSteps_of_pos _ (Nat.zero_lt_of_lt hfuel), hstep]
  obtain ⟨e, hunit, hend⟩ | ⟨v, k, hunit, hgo⟩ := s.decodeUnit_cases goOn
  · have hbyte : decodeByte rest = .error e := by
      rw [h.rest_eq] at hunit
      simp only [decodeByte, hunit]
    rw [hend, h.decodeFailed_eq, hbyte]
    rfl
  · rw [h.rest_eq] at hunit
    have hbyte : decodeByte rest = .ok (v, rest.drop k) := by simp only [decodeByte, hunit]
    obtain ⟨hpos, -, hle⟩ := unstuff_ok hunit
    have hraw : (rest.take k).length = k := by rw [List.length_take, Nat.min_eq_left hle]
    have hleft : (rest.drop k).length < fuel - 1 := by
      rw [List.length_drop]
      omega
    have hrun := hnext v _ _ (List.take_append_drop k rest).symm (by omega) hleft
    rw [hraw] at hrun
    rw [hgo, hbyte]
    exact hrun

/-- A step that requires a raw flag (R192, R201). -/
theorem run_decodeFlag {phase : DecPhase} (hstep : decodeStep s = s.decodeFlag phase) {next : List Byte → Except Status Frame}
    (hnext : ∀ r, r.length < fuel - 1 → ∀ t, DecodingAt s₀ t f decoded consumed r → t.dec.phase = phase →
      runSteps decodeStep (fuel - 1) t = some (s₀.decodeEnd (next r))) :
    runSteps decodeStep fuel s = some (s₀.decodeEnd (decodeStart rest >>= next)) := by
  rw [runSteps_of_pos _ (Nat.zero_lt_of_lt hfuel), hstep, State.decodeFlag]
  have hremaining := h.remaining
  cases hrest : rest with
  | nil =>
    rw [hrest, List.length_nil] at hremaining
    rw [if_pos (Nat.le_of_sub_eq_zero hremaining), h.decodeFailed_eq]
    rfl
  | cons v r =>
    subst hrest
    rw [List.length_cons] at hremaining hfuel
    have hread : s.buf.read s.dec.c = v := by
      have hlist := h.rest_eq
      rw [State.decodeRest, hremaining, Memory.readList] at hlist
      exact (List.cons.inj hlist).1
    rw [if_neg (by omega), hread, decodeStart]
    by_cases hv : v = flagByte
    · rw [if_pos hv, if_pos hv]
      exact hnext r (by omega) _ (DecodingAt.advance (raw := [v]) h rfl rfl) rfl
    · rw [if_neg hv, if_neg hv, h.decodeFailed_eq]
      rfl

/-- A step that takes a unit of the content (R194 to R196). -/
theorem run_decodeContent {store : Frame → Byte → Frame} {enter : State → State}
    (hstep : decodeStep s = s.decodeContent store enter) {next : Byte × List Byte → Except Status Frame}
    (hnext : ∀ v raw r, rest = raw ++ r → 0 < raw.length → r.length < fuel - 1 →
      ∀ t, DecodingAt s₀ t (store f v) (decoded ++ [v]) (consumed ++ raw) r →
        runSteps decodeStep (fuel - 1) (enter t) = some (s₀.decodeEnd (next (v, r)))) :
    runSteps decodeStep fuel s = some (s₀.decodeEnd (decodeByte rest >>= next)) := by
  refine run_decodeUnit h hfuel hstep fun v raw r hrest hraw hleft => ?_
  subst hrest
  rw [h.rest_eq, List.take_left, h.fr_eq]
  exact hnext v raw r rfl hraw hleft _ (h.content v _)

/-- State Done (R202). -/
theorem run_done (hphase : s.dec.phase = .done) : runSteps decodeStep fuel s = some (s₀.decodeEnd (.ok f)) := by
  rw [runSteps_of_pos _ (Nat.zero_lt_of_lt hfuel), decodeStep, hphase, h.fr_eq, h.decodeOk_eq]
  rfl

/-- State AwaitStopFlag (R201). -/
theorem run_awaitStopFlag (hphase : s.dec.phase = .awaitStopFlag) :
    runSteps decodeStep fuel s = some (s₀.decodeEnd (decodeStop rest >>= fun _ => .ok f)) := by
  have hstop : decodeStop rest >>= (fun _ => .ok f) = decodeStart rest >>= fun _ => Except.ok f := by
    rw [decodeStop_eq]
    rcases decodeStart rest with e | r <;> rfl
  rw [hstop]
  exact run_decodeFlag h hfuel (by rw [decodeStep, hphase]) fun r hleft t ht hdone => run_done ht hleft hdone

end run

section run
variable {s₀ s : State} {address control : Byte} {info consumed rest : List Byte} {fuel : Nat}
  (h : DecodingAt s₀ s (Frame.ofInfo address control info s₀.params.maxInfo) (address :: control :: info) consumed rest)
  (hfuel : rest.length < fuel)
include h hfuel

/-- State FCS, the high byte read (R199, R200). -/
theorem run_fcsLow (hphase : s.dec.phase = .fcs) (hread : s.dec.fcsHiRead = true) :
    runSteps decodeStep fuel s
      = some (s₀.decodeEnd (decodeFromFcsLow s₀.params address control info consumed s.dec.fcsHi rest)) := by
  refine run_decodeUnit h hfuel (by rw [decodeStep, hphase, State.decodeFcsHalf]) fun lo raw r hrest _ hleft => ?_
  subst hrest
  have hcrc : crcFinal s.crc = decodeFcs s₀.params.fcsScope address control info consumed := by
    rw [h.crc_eq, decodeFcs_eq, crc16]
  rw [hread, hcrc, if_neg (by decide)]
  by_cases hsum : joinBytes s.dec.fcsHi lo = decodeFcs s₀.params.fcsScope address control info consumed
  · rw [if_pos hsum]
    have hstop := run_awaitStopFlag (h.advance (raw := raw)
      (dec := { s.dec with phase := .awaitStopFlag, c := s.dec.c + raw.length }) rfl rfl) hleft rfl
    simpa [hsum, Progress.run] using hstop
  · rw [if_neg hsum]
    simp [hsum, Progress.run, h.decodeFailed_eq, State.decodeEnd]

/-- State FCS (R199). -/
theorem run_fcs (hphase : s.dec.phase = .fcs) (hread : s.dec.fcsHiRead = false) :
    runSteps decodeStep fuel s
      = some (s₀.decodeEnd (decodeFromFcs s₀.params address control info consumed rest)) := by
  refine run_decodeUnit h hfuel (by rw [decodeStep, hphase, State.decodeFcsHalf]) fun hi raw r hrest _ hleft => ?_
  subst hrest
  rw [if_pos hread]
  exact run_fcsLow (h.advance (raw := raw) (dec := { s.dec with fcsHi := hi, fcsHiRead := true, c := s.dec.c + raw.length })
    rfl rfl) hleft hphase rfl

/-- Entering FCS, where the Info loop ends (R196). -/
theorem run_enterFcs {r : List Byte} (hr : consumed ++ rest = r) (hfew : rest.length ≤ 3) (passes : Nat) :
    runSteps decodeStep fuel s.enterFcs
      = some (s₀.decodeEnd (decodeFromInfo s₀.params address control r passes info rest)) := by
  subst hr
  have hrun := run_fcs (h.advance (raw := []) (dec := s.enterFcs.dec) rfl rfl) hfuel rfl rfl
  rwa [decodeFromInfo_of_ok (decodeInfo_stop hfew)]

end run

/-- One pass of Info as a unit read and the passes after it (R196). -/
theorem decodeFromInfo_bind {p : Params} {address control : Byte} {passes : Nat} {info r rest : List Byte}
    (h : 3 < rest.length) (hroom : info.length ≠ p.maxInfo) :
    decodeFromInfo p address control r (passes + 1) info rest
      = decodeByte rest >>= fun x => decodeFromInfo p address control r passes (info ++ [x.1]) x.2 := by
  rw [decodeFromInfo, decodeInfo, if_neg (Nat.not_le.mpr h), if_neg hroom]
  rcases decodeByte rest with e | ⟨v, r'⟩ <;> rfl

/-- Appending an info byte to a frame with room for it (R190). -/
theorem Frame.ofInfo_appendInfo (address control v : Byte) {info : List Byte} {maxInfo : Nat} (hroom : info.length < maxInfo)
    (hmax : maxInfo ≤ 255) :
    (Frame.ofInfo address control info maxInfo).appendInfo v = Frame.ofInfo address control (info ++ [v]) maxInfo := by
  have hlength := Frame.ofInfo_infoLen_toNat (info := info) (by omega) address control maxInfo
  have hspare : maxInfo - info.length = maxInfo - (info.length + 1) + 1 := by omega
  rw [Frame.appendInfo, hlength]
  simp [Frame.ofInfo, hspare, List.replicate_succ, BitVec.ofNat_add]

/-- A step in state Info (R196, R197). -/
theorem decodeStep_info {s₀ s : State} (hmax : s₀.params.maxInfo ≤ 255) {address control : Byte}
    {info decoded consumed rest : List Byte}
    (h : DecodingAt s₀ s (Frame.ofInfo address control info s₀.params.maxInfo) decoded consumed rest)
    (hroom : info.length ≤ s₀.params.maxInfo) (hphase : s.dec.phase = .info) :
    decodeStep s = if info.length = s₀.params.maxInfo then .ended (s₀.decodeFailed .malformedStream)
      else s.decodeContent Frame.appendInfo State.enterInfo := by
  have hlength := Frame.ofInfo_infoLen_toNat (Nat.le_trans hroom hmax) address control s₀.params.maxInfo
  rw [decodeStep, hphase, ← h.decodeFailed_eq, ← h.params_eq, ← hlength, ← h.fr_eq]

/-- States Info and FCS, from entering Info on: each pass takes one info byte more (R196). -/
theorem run_enterInfo {s₀ s : State} (hmax : s₀.params.maxInfo ≤ 255) {address control : Byte} {passes fuel : Nat}
    {info consumed rest r : List Byte}
    (h : DecodingAt s₀ s (Frame.ofInfo address control info s₀.params.maxInfo) (address :: control :: info) consumed rest)
    (hroom : info.length ≤ s₀.params.maxInfo) (hr : consumed ++ rest = r) (hpasses : rest.length ≤ passes)
    (hfuel : rest.length < fuel) :
    runSteps decodeStep fuel s.enterInfo
      = some (s₀.decodeEnd (decodeFromInfo s₀.params address control r passes info rest)) := by
  induction passes generalizing s info consumed rest fuel with
  | zero =>
    have hremaining := h.remaining
    rw [State.enterInfo, if_pos (by omega)]
    exact run_enterFcs h hfuel hr (by omega) 0
  | succ passes ih =>
    have hremaining := h.remaining
    obtain ⟨hfew, henter⟩ | ⟨hmore, henter⟩ := s.enterInfo_cases
    · rw [henter]
      exact run_enterFcs h hfuel hr (by omega) _
    · have hinfo := h.advance (raw := []) (dec := { s.dec with phase := .info }) rfl rfl
      have hstep := decodeStep_info hmax hinfo hroom rfl
      have hthree : 3 < rest.length := by omega
      rw [henter]
      by_cases hfull : info.length = s₀.params.maxInfo
      · rw [if_pos hfull] at hstep
        rw [runSteps_of_pos _ (Nat.zero_lt_of_lt hfuel), hstep, decodeFromInfo, decodeInfo_overflow hthree hfull]
        rfl
      · rw [if_neg hfull] at hstep
        rw [decodeFromInfo_bind hthree hfull]
        refine run_decodeContent hinfo hfuel hstep fun v raw left hrest hraw hleft t ht => ?_
        rw [Frame.ofInfo_appendInfo _ _ _ (by omega) hmax] at ht
        subst hrest
        rw [List.length_append] at hpasses
        have hpasses' : left.length ≤ passes := by omega
        have hroom' : (info ++ [v]).length ≤ s₀.params.maxInfo := by
          rw [List.length_append, List.length_singleton]
          omega
        exact ih ht hroom' (by rw [List.append_assoc, hr]) hpasses' hleft

section run
variable {s₀ s : State} {fuel : Nat}

/-- State Control (R195). -/
theorem run_control (hmax : s₀.params.maxInfo ≤ 255) {address : Byte} {consumed rest : List Byte}
    (h : DecodingAt s₀ s { Frame.zero s₀.params.maxInfo with address := address } [address] consumed rest)
    (hfuel : rest.length < fuel) (hphase : s.dec.phase = .control) :
    runSteps decodeStep fuel s = some (s₀.decodeEnd (decodeByte rest >>= fun x =>
      decodeFromInfo s₀.params address x.1 (consumed ++ rest) x.2.length [] x.2)) := by
  refine run_decodeContent h hfuel (by rw [decodeStep, hphase]) fun control raw r hrest _ hleft t ht => ?_
  exact run_enterInfo hmax ht (Nat.zero_le _) (by simp [hrest]) (Nat.le_refl _) hleft

/-- State Address (R194). -/
theorem run_address (hmax : s₀.params.maxInfo ≤ 255) {rest : List Byte}
    (h : DecodingAt s₀ s (Frame.zero s₀.params.maxInfo) [] [] rest) (hfuel : rest.length < fuel)
    (hphase : s.dec.phase = .address) :
    runSteps decodeStep fuel s = some (s₀.decodeEnd (decodeByte rest >>= fun x => decodeByte x.2 >>= fun y =>
      decodeFromInfo s₀.params x.1 y.1 rest y.2.length [] y.2)) := by
  refine run_decodeContent h hfuel (by rw [decodeStep, hphase]) fun address raw r hrest _ hleft t ht => ?_
  rw [hrest]
  exact run_control hmax (s := t.enterControl) (ht.advance (raw := []) rfl rfl) hleft rfl

end run

/-- Settles O37: each step of the per-byte decoder takes the run of DECODE on by one unit, so both come to the same end. -/
theorem perByteDecodeIsDecode : Obligations.PerByteDecodeIsDecode := by
  intro s n hinv
  obtain ⟨⟨hmax, -, -⟩, -⟩ := hinv
  rcases Nat.lt_or_ge s.params.bufSize n.toNat with hn | hn
  · exact ⟨_, if_pos hn, execDecode_refused hn⟩
  · have hrun := run_decodeFlag (fuel := n.toNat + 1) (decodingAt_decodeBegin s n.toNat) (by simp) rfl
      fun r hleft t ht hphase => run_address hmax ht hleft hphase
    exact ⟨_, (if_neg (Nat.not_lt.mpr hn)).trans hrun, execDecode_eq_decodeEnd hn⟩

end Sys2Proof.Machine
end

section
/-! PROOFS. The statements about the host access commands (45_host_access.md): each writes or gives one field of FR or one byte
of BUF, and refuses a length or an index out of range. -/

namespace Sys2Proof.Machine

/-! ## Lengths and indices in range and out of range -/

section exec
variable (s : State) {a : Byte} (b : Byte) {n : Half} (c : Byte)

theorem exec_wrLen_refused (h : s.params.maxInfo < a.toNat) : exec (.wrLen a) s = .next (s.answerError .invalidArgument) :=
  congrArg Host.Outcome.next (if_pos h)

theorem exec_wrLen_inRange (h : a.toNat ≤ s.params.maxInfo) :
    exec (.wrLen a) s = .next (State.answerOk { s with fr := { s.fr with infoLen := a } } 0) :=
  congrArg Host.Outcome.next (if_neg (Nat.not_lt.mpr h))

theorem exec_wrInfo_refused (h : s.params.maxInfo ≤ a.toNat) :
    exec (.wrInfo a b) s = .next (s.answerError .invalidArgument) :=
  congrArg Host.Outcome.next (if_pos h)

theorem exec_wrInfo_inRange (h : a.toNat < s.params.maxInfo) :
    exec (.wrInfo a b) s = .next (State.answerOk { s with fr := s.fr.setInfo a.toNat b } 0) :=
  congrArg Host.Outcome.next (if_neg (Nat.not_le.mpr h))

theorem exec_rdInfo_refused (h : s.params.maxInfo ≤ a.toNat) : exec (.rdInfo a) s = .next (s.answerError .invalidArgument) :=
  congrArg Host.Outcome.next (if_pos h)

theorem exec_rdInfo_inRange (h : a.toNat < s.params.maxInfo) :
    exec (.rdInfo a) s = .next (s.answerOk (zext32 (s.fr.infoAt a.toNat))) :=
  congrArg Host.Outcome.next (if_neg (Nat.not_le.mpr h))

theorem exec_wrBuf_refused (h : s.params.bufSize ≤ n.toNat) :
    exec (.wrBuf n c) s = .next (s.answerError .invalidArgument) :=
  congrArg Host.Outcome.next (if_pos h)

theorem exec_wrBuf_inRange (h : n.toNat < s.params.bufSize) :
    exec (.wrBuf n c) s = .next (State.answerOk { s with buf := s.buf.write n.toNat c } 0) :=
  congrArg Host.Outcome.next (if_neg (Nat.not_le.mpr h))

theorem exec_rdBuf_refused (h : s.params.bufSize ≤ n.toNat) : exec (.rdBuf n) s = .next (s.answerError .invalidArgument) :=
  congrArg Host.Outcome.next (if_pos h)

theorem exec_rdBuf_inRange (h : n.toNat < s.params.bufSize) :
    exec (.rdBuf n) s = .next (s.answerOk (zext32 (s.buf.read n.toNat))) :=
  congrArg Host.Outcome.next (if_neg (Nat.not_le.mpr h))

end exec

/-! ## The info bytes -/

/-- Settles O4: the byte set is listed at its index, which is one of the MAX_INFO bytes, and every other index keeps its own. -/
theorem wrInfoWritesOneInfoByte : Obligations.WrInfoWritesOneInfoByte := by
  refine ⟨fun a b c => decode_wordABC (.wrInfo a b) c b a (by simp [Instr.withOperandsOf]), fun s a b hinv => ?_⟩
  obtain ⟨-, hlength, -, -, -⟩ := hinv
  refine ⟨exec_wrInfo_refused s b, fun ha => ⟨s.fr.info.set a.toNat b, exec_wrInfo_inRange s b ha, List.length_set, ?_, ?_⟩⟩
  · exact List.getElem?_set_self (by rwa [hlength])
  · intro j hj
    exact List.getElem?_set_ne hj.symm

theorem Frame.infoAt_of_getElem? {f : Frame} {i : Nat} {v : Byte} (h : f.info[i]? = some v) : f.infoAt i = v := by
  simp [Frame.infoAt, h]

/-- RD_INFO of a byte that FR.info lists (R229). -/
theorem exec_rdInfo_of_getElem? {s : State} {a v : Byte} (ha : a.toNat < s.params.maxInfo)
    (hv : s.fr.info[a.toNat]? = some v) : exec (.rdInfo a) s = .next (s.answerOk (zext32 v)) := by
  rw [exec_rdInfo_inRange s ha, Frame.infoAt_of_getElem? hv]

/-- After a successful DECODE the info bytes at and above FR.info_len are 0 (R193). -/
theorem info_zero_of_decode_ok {s t : State} {n : Half} {i : Nat} (hinv : s.Inv) (h : exec (.decode n) s = .next t)
    (hstatus : t.status? = some .ok) (hlen : t.fr.infoLen.toNat ≤ i) (hi : i < s.params.maxInfo) :
    t.fr.info[i]? = some 0 := by
  obtain ⟨-, -, -, -, _, info, _, _, -, -, -, -, hlength, -, hinfo, -⟩ := decodeAcceptsOnlyFrames s t n hinv h hstatus
  have hpast : info.length ≤ i := hlength ▸ hlen
  have hzeros : i - info.length < s.params.maxInfo - info.length := by omega
  rw [hinfo, List.getElem?_append_right hpast, List.getElem?_replicate_of_lt hzeros]

/-- Settles O6: the index is one of the MAX_INFO bytes of FR.info, and a successful DECODE leaves zeros from FR.info_len on. -/
theorem rdInfoGivesTheStoredByte : Obligations.RdInfoGivesTheStoredByte := by
  refine ⟨fun a b c => decode_wordABC (.rdInfo a) c b a (by simp [Instr.withOperandsOf]), fun s a hinv => ?_,
    fun s t n a hinv h hstatus hlen ha => ?_⟩
  · obtain ⟨-, hlength, -, -, -⟩ := hinv
    refine ⟨exec_rdInfo_refused s, fun ha => ?_⟩
    have hv := List.getElem?_eq_getElem (hlength.symm ▸ ha : a.toNat < s.fr.info.length)
    exact ⟨_, hv, exec_rdInfo_of_getElem? ha hv⟩
  · have hparams : t.params = s.params := (update_of_exec h).params_eq
    exact exec_rdInfo_of_getElem? (hparams ▸ ha) (info_zero_of_decode_ok hinv h hstatus hlen ha)

/-! ## The other fields of FR -/

/-- Settles O5: the reset FR is zero, a failed DECODE has drawn FR.control, and FR.info_len is at most MAX_INFO. -/
theorem fieldReadsGiveTheField : Obligations.FieldReadsGiveTheField := by
  refine ⟨fun a b c => ⟨decode_wordABC .rdAddr c b a rfl, decode_wordABC .rdCtrl c b a rfl, decode_wordABC .rdLen c b a rfl⟩,
    fun s => ⟨rfl, rfl, rfl⟩, fun p => rfl, fun s t n h hn hstatus => ?_, fun s hinv => ⟨_, rfl, ?_⟩⟩
  · obtain ⟨_, k, _, _, _, -, -, -, rfl, -⟩ := decodeFailureDrawsTheFrame s n t h hn hstatus
    exact ⟨k + 1, rfl⟩
  · obtain ⟨-, -, hle, -, -⟩ := hinv
    rwa [zext32, BitVec.toNat_setWidth_of_le (by decide)]

/-- Settles O1: the `op` 0x00 alone selects NOP, whatever the operand bytes. -/
theorem nopDoesNothing : Obligations.NopDoesNothing :=
  ⟨fun a b c => decode_wordABC .nop c b a rfl, fun _ => rfl⟩

/-- Settles O2: neither command tests its byte. -/
theorem wrAddrAndWrCtrlWriteTheirField : Obligations.WrAddrAndWrCtrlWriteTheirField :=
  ⟨fun a b c => ⟨decode_wordABC (.wrAddr a) c b a (by simp [Instr.withOperandsOf]),
    decode_wordABC (.wrCtrl a) c b a (by simp [Instr.withOperandsOf])⟩, fun _ _ => ⟨rfl, rfl⟩⟩

/-- Settles O3, by the two sides of MAX_INFO. -/
theorem wrLenWritesInfoLenUpToMaxInfo : Obligations.WrLenWritesInfoLenUpToMaxInfo :=
  ⟨fun a b c => decode_wordABC (.wrLen a) c b a (by simp [Instr.withOperandsOf]),
    fun s _ => ⟨exec_wrLen_refused s, exec_wrLen_inRange s⟩⟩

/-- Settles O7: CLR_FRAME and reset write the same zero frame. -/
theorem clrFrameZeroesTheFrame : Obligations.ClrFrameZeroesTheFrame :=
  ⟨fun a b c => decode_wordABC .clrFrame c b a rfl, fun _ => ⟨rfl, rfl⟩⟩

/-! ## The bytes of BUF -/

/-- Settles O8, by what a read of BUF gives after one write. -/
theorem wrBufWritesOneByte : Obligations.WrBufWritesOneByte := by
  refine ⟨fun n c => decode_wordNC (.wrBuf n c) c n (by simp [Instr.withOperandsOf]),
    fun s n c => ⟨exec_wrBuf_refused s c, fun hn => ⟨_, exec_wrBuf_inRange s c hn, ?_, fun i hi => ?_⟩⟩⟩
  · rw [Memory.read_write, if_pos rfl]
  · rw [Memory.read_write, if_neg hi]

/-- Only an ENCODE that has begun answers BufferTooSmall, and it has drawn BUF up to its capacity (R179). -/
theorem encodeFailed_of_bufferTooSmall {s t : State} {cap : Half} (h : exec (.encode cap) s = .next t)
    (hstatus : t.status? = some .bufferTooSmall) :
    cap.toNat ≤ s.params.bufSize ∧ t = s.encodeFailed cap.toNat .bufferTooSmall := by
  rcases Nat.lt_or_ge s.params.bufSize cap.toNat with hcap | hcap
  · cases (execEncode_refused hcap).symm.trans h
    cases hstatus
  · cases (execEncode_eq s cap hcap).symm.trans h
    split at hstatus
    · exact ⟨hcap, if_pos ‹_›⟩
    · cases hstatus

/-- A failed ENCODE has written draws below its capacity (R179). -/
theorem State.encodeFailed_read (s : State) (e : Status) {cap i : Nat} (hi : i < cap) :
    (s.encodeFailed cap e).buf.read i = drawByte (s.draws + i) :=
  Memory.read_writeList_zero _ (drawBytes_getElem? _ hi)

/-- After reset no byte of BUF is written yet, so each reads as its draw (R281). -/
theorem State.resetWith_read (p : Params) (i : Nat) : (State.resetWith p).buf.read i = drawByte (0 + i) := rfl

/-- Settles O9, by what a read of BUF gives after reset and after a failed ENCODE. -/
theorem rdBufGivesTheByte : Obligations.RdBufGivesTheByte := by
  refine ⟨fun n c => decode_wordNC (.rdBuf n) c n (by simp [Instr.withOperandsOf]),
    fun s n => ⟨exec_rdBuf_refused s, exec_rdBuf_inRange s⟩, fun p n hn => ⟨0 + n.toNat, ?_⟩,
    fun s t cap n h hstatus hn => ?_⟩
  · rw [← State.resetWith_read p]
    exact exec_rdBuf_inRange _ hn
  · obtain ⟨hcap, rfl⟩ := encodeFailed_of_bufferTooSmall h hstatus
    refine ⟨s.draws + n.toNat, ?_⟩
    rw [← s.encodeFailed_read .bufferTooSmall hn]
    exact exec_rdBuf_inRange _ (Nat.lt_of_lt_of_le hn hcap)

end Sys2Proof.Machine
end

section
/-! PROOFS. The statements about the exceptions (60_exceptions.md): the causes of each error, and the block with nothing to do. -/

namespace Sys2Proof.Machine

/-! ## The causes of the errors -/

/-- An operand of the command is out of its range: a length or capacity above BUF_SIZE, an index of BUF or of FR.info that is
none, or a length above MAX_INFO (R251). -/
def ArgumentOutOfRange (s : State) : Instr → Prop
  | .encode n | .decode n | .crcBuf n => s.params.bufSize < n.toNat
  | .wrBuf n _ | .rdBuf n => s.params.bufSize ≤ n.toNat
  | .wrInfo a _ | .rdInfo a => s.params.maxInfo ≤ a.toNat
  | .wrLen a => s.params.maxInfo < a.toNat
  | .nop | .wrAddr _ | .wrCtrl _ | .rdAddr | .rdCtrl | .rdLen | .clrFrame | .stuff _ _ | .unstuff _ _ _
  | .buildI _ _ _ | .buildS _ _ _ | .buildU _ _ | .ctrlParse _ => False

/-- The ways a command can raise an error, each with its cause and the state it leaves (R251 to R256). -/
inductive Raises : Instr → State → State → Prop
  | argument {i : Instr} {s : State} (h : ArgumentOutOfRange s i) : Raises i s (s.answerError .invalidArgument)
  | encode {n : Half} {s : State} (hn : n.toNat ≤ s.params.bufSize)
      (hfull : n.toNat < (wireFrame s.params.fcsScope s.fr).length) :
      Raises (.encode n) s (s.encodeFailed n.toNat .bufferTooSmall)
  | stuff {a b : Byte} {s : State} (h : b.toNat < (stuffBytes a).length) :
      Raises (.stuff a b) s (s.answerError .bufferTooSmall)
  | unstuff (a b c : Byte) (s : State) {e : Status} (he : StreamError e) : Raises (.unstuff a b c) s (s.answerError e)
  | decode (n : Half) (s : State) {e : Status} (he : e = .checksumMismatch ∨ StreamError e) :
      Raises (.decode n) s (s.decodeFailed e)
  | buildU {a : Byte} (b : Byte) (s : State) (h : 6 < a.toNat) :
      Raises (.buildU a b) s (s.answerError .unknownModifierCode)

theorem execEncode_ok_or_raises (n : Half) (s : State) :
    ∃ t, execEncode n s = .next t ∧ (t.status? = some .ok ∨ Raises (.encode n) s t) := by
  rcases Nat.lt_or_ge s.params.bufSize n.toNat with hn | hn
  · exact ⟨_, execEncode_refused hn, .inr (.argument hn)⟩
  · refine ⟨_, execEncode_eq s n hn, ?_⟩
    split
    · exact .inr (.encode hn ‹_›)
    · exact .inl rfl

theorem execDecode_ok_or_raises (n : Half) (s : State) :
    ∃ t, execDecode n s = .next t ∧ (t.status? = some .ok ∨ Raises (.decode n) s t) := by
  rcases Nat.lt_or_ge s.params.bufSize n.toNat with hn | hn
  · exact ⟨_, execDecode_refused hn, .inr (.argument hn)⟩
  · rcases hrun : decodeFrame s.params (s.buf.readList 0 n.toNat) with e | f
    · exact ⟨_, execDecode_of_error hn hrun, .inr (.decode n s (decodeFrame_error hrun))⟩
    · exact ⟨_, execDecode_of_ok hn hrun, .inl rfl⟩

/-- Every command answers OK or raises an error in one of these ways (R250). -/
theorem exec_ok_or_raises (i : Instr) (s : State) : ∃ t, exec i s = .next t ∧ (t.status? = some .ok ∨ Raises i s t) := by
  cases i with
  | encode n => exact execEncode_ok_or_raises n s
  | decode n => exact execDecode_ok_or_raises n s
  | nop | wrAddr | wrCtrl | rdAddr | rdCtrl | rdLen | clrFrame | buildI | buildS | ctrlParse => exact ⟨_, rfl, .inl rfl⟩
  | wrLen | wrInfo | rdInfo | wrBuf | rdBuf | crcBuf =>
    refine ⟨_, rfl, ?_⟩
    split
    · exact .inr (.argument ‹_›)
    · exact .inl rfl
  | stuff a b =>
    refine ⟨_, rfl, ?_⟩
    split
    · exact .inr (.stuff ‹_›)
    · exact .inl rfl
  | unstuff a b c =>
    refine ⟨_, rfl, ?_⟩
    split
    · exact .inr (.unstuff a b c s ((unstuff_error ‹_›).imp And.right And.right))
    · exact .inl rfl
  | buildU a b =>
    refine ⟨_, rfl, ?_⟩
    split
    · exact .inr (.buildU b s (List.getElem?_eq_none_iff.mp ‹_›))
    · exact .inl rfl

/-- A command that answers with an error has raised it in one of these ways. -/
theorem raises_of_exec {i : Instr} {s t : State} {e : Status} (h : exec i s = .next t) (hstatus : t.status? = some e)
    (he : e ≠ .ok) : Raises i s t := by
  obtain ⟨t', ht', hok | hraises⟩ := exec_ok_or_raises i s
  · cases h.symm.trans ht'
    exact absurd (Option.some.inj (hstatus.symm.trans hok)) he
  · cases h.symm.trans ht'
    exact hraises

/-! ## InvalidArgument -/

theorem exec_refused {i : Instr} {s : State} (h : ArgumentOutOfRange s i) :
    exec i s = .next (s.answerError .invalidArgument) := by
  cases i with
  | encode n => exact execEncode_refused h
  | decode n => exact execDecode_refused h
  | crcBuf n => exact exec_crcBuf_refused s h
  | wrBuf n c => exact exec_wrBuf_refused s c h
  | rdBuf n => exact exec_rdBuf_refused s h
  | wrInfo a b => exact exec_wrInfo_refused s b h
  | rdInfo a => exact exec_rdInfo_refused s h
  | wrLen a => exact exec_wrLen_refused s h
  | _ => exact h.elim

/-- DECODE and UNSTUFF do not answer InvalidArgument for what they read, so an operand is out of range (R251). -/
theorem refused_of_invalidArgument {i : Instr} {s t : State} (h : exec i s = .next t)
    (hstatus : t.status? = some .invalidArgument) : ArgumentOutOfRange s i ∧ t = s.answerError .invalidArgument := by
  cases raises_of_exec h hstatus (by decide) with
  | argument hrange => exact ⟨hrange, rfl⟩
  | encode | stuff | buildU => cases hstatus
  | unstuff _ _ _ _ he => obtain rfl | rfl := he <;> cases hstatus
  | decode _ _ he => obtain rfl | rfl | rfl := he <;> cases hstatus

/-- Settles O49: the operand out of range is the only cause a command has, and the command is then refused. -/
theorem invalidArgumentHasExactlyTheseCauses : Obligations.InvalidArgumentHasExactlyTheseCauses := by
  refine ⟨fun i s t h => ?_, fun _ _ _ _ => step_of_undefined⟩
  have hcause : t.status? = some .invalidArgument ↔ ArgumentOutOfRange s i := by
    refine ⟨fun hstatus => (refused_of_invalidArgument h hstatus).1, fun hrange => ?_⟩
    cases (exec_refused hrange).symm.trans h
    rfl
  exact ⟨hcause, fun hstatus => (refused_of_invalidArgument h hstatus).2⟩

/-! ## BufferTooSmall -/

/-- Settles O50: ENCODE compares its capacity with the length of the encoded frame, STUFF its room with the stuffed length. -/
theorem bufferTooSmallHasExactlyTheseCauses : Obligations.BufferTooSmallHasExactlyTheseCauses := by
  intro i s t hinv h
  constructor
  · intro hstatus
    cases raises_of_exec h hstatus (by decide) with
    | encode hn hfull => exact ⟨hn, hinv.wireFrame_length ▸ hfull⟩
    | stuff hroom => rwa [stuffBytes_length] at hroom
    | argument | buildU => cases hstatus
    | unstuff _ _ _ _ he => obtain rfl | rfl := he <;> cases hstatus
    | decode _ _ he => obtain rfl | rfl | rfl := he <;> cases hstatus
  · intro hcause
    cases i with
    | encode n =>
      obtain ⟨hn, hfull⟩ := hcause
      cases (exec_encode_tooSmall hinv hn hfull).symm.trans h
      rfl
    | stuff a b =>
      cases (exec_stuff_noRoom s (stuffBytes_length a ▸ hcause)).symm.trans h
      rfl
    | _ => exact hcause.elim

/-! ## The other errors -/

/-- Settles O51: of the ways to raise an error, those with these statuses belong to the commands named. -/
theorem otherErrorsComeFromTheirCommands : Obligations.OtherErrorsComeFromTheirCommands := by
  intro i s t h
  refine ⟨fun hstatus => ?_, fun hstatus => ?_, fun hstatus => ?_, ?_⟩
  · have hraises : Raises i s t :=
      hstatus.elim (raises_of_exec h · (by decide)) (raises_of_exec h · (by decide))
    cases hraises with
    | decode n => exact .inl ⟨n, rfl⟩
    | unstuff a b c => exact .inr ⟨a, b, c, rfl⟩
    | argument | encode | stuff | buildU => obtain hstatus | hstatus := hstatus <;> cases hstatus
  · cases raises_of_exec h hstatus (by decide) with
    | decode n => exact ⟨n, rfl⟩
    | unstuff _ _ _ _ he => obtain rfl | rfl := he <;> cases hstatus
    | argument | encode | stuff | buildU => cases hstatus
  · cases raises_of_exec h hstatus (by decide) with
    | buildU b _ ha => exact ⟨_, b, rfl, ha⟩
    | unstuff _ _ _ _ he => obtain rfl | rfl := he <;> cases hstatus
    | decode _ _ he => obtain rfl | rfl | rfl := he <;> cases hstatus
    | argument | encode | stuff => cases hstatus
  · rintro ⟨a, b, rfl, ha⟩
    cases (exec_buildU_of_noRow s b ha).symm.trans h
    rfl

/-! ## The idle block -/

/-- Settles O60: with no event there is nothing to take. -/
theorem idleBlockKeepsItsState : Obligations.IdleBlockKeepsItsState := by
  intro s h
  simp [step, fetch_nil h]

end Sys2Proof.Machine
end

section
/-! PROOFS. The statements about reset (70_reset_and_hazards.md): what a reset between commands does, and the bytes BUF then
holds. -/

namespace Sys2Proof.Machine

/-- A step applies a reset that comes next, with the later events kept (log 11). -/
theorem step_of_reset {s : State} {rest : List HostEvent} (h : s.input = .reset :: rest) :
    step s = .next (State.applyReset { s with input := rest }) := by
  simp [step, fetch_cons h]

/-- A reset between commands leaves no byte of BUF written, so each reads as a draw not made before (R281). -/
theorem State.applyReset_read (s : State) (i : Nat) : s.applyReset.buf.read i = drawByte (s.draws + i) := rfl

/-- Settles O59: the draws for BUF begin at number 0 in the state after reset, and at the first number not yet drawn in a reset
between commands. -/
theorem resetDrawsEveryByteOfBuf : Obligations.ResetDrawsEveryByteOfBuf := by
  refine ⟨fun p => ⟨0, ?_, fun i _ => State.resetWith_read p i⟩,
    fun s rest h => ⟨_, s.draws, step_of_reset h, rfl, rfl, le_rfl, ?_, fun i _ => State.applyReset_read _ i⟩⟩
  · exact (Nat.zero_add p.bufSize).le
  · exact (State.applyReset_draws _).ge

end Sys2Proof.Machine
end
